-- ==== Sys2Proof/Word.lean ====
section
/-! DEFINITION. The byte, the 16-bit value, and the code of a character (spec 00_scope.md R10, R11). -/

namespace Sys2Proof

/-- A byte, 0 to 255 (R10); bit 0 is its least significant bit (R11). -/
abbrev Byte := BitVec 8

/-- A 16-bit unsigned value: the value argument of a command, the width of `V_VAL` (R28). -/
abbrev Half := BitVec 16

/-- The code of a character as a byte (R10, R67). The four known opcodes are ASCII, so nothing is cut off. -/
def charCode (c : Char) : Byte := BitVec.ofNat 8 c.toNat

end Sys2Proof
end

