-- ==== Sys2Proof/Config.lean ====
section
/-! DEFINITION. The parameters of the block (spec 00_scope.md R6) and the free values: what the spec leaves
unspecified. A free value is an uninterpreted constant applied to the state's draw counter, so a claim
about it is a claim about every value. -/

namespace Sys2Proof.Config

/-- `TELEMETRY_LEN` (R6): the bytes `PARSE` needs and reads. -/
def telemetryLen : Nat := 15

/-- `COMMAND_LEN` (R6): the bytes of a command frame. -/
def commandLen : Nat := 4

/-- `CHECKSUM_MODULUS` (R6). -/
def checksumModulus : Nat := 256

/-- `ACK_MIN_LEN` (R6, R153): the least length of a reply, by whether the command carries a value. -/
def ackMinLen (hasValue : Bool) : Nat := if hasValue then 3 else 1

/-- The greatest ASCII code (G2, R69, R137): opcodes above it are outside the contract. -/
def asciiMax : Nat := 0x7F

/-- `KNOWN_OPCODES` (R6, R68): telemetry poll. -/
def opcodeA : Byte := charCode 'A'

/-- `KNOWN_OPCODES` (R6, R68): start. -/
def opcodeG : Byte := charCode 'G'

/-- `KNOWN_OPCODES` (R6, R68): stop. -/
def opcodeX : Byte := charCode 'x'

/-- `KNOWN_OPCODES` (R6, R68): set reference value. -/
def opcodeE : Byte := charCode 'e'

/-- The unspecified content of `V_OP` after a reset (R34, R200; U9 "any value"). Free: no value of it can be proved. -/
opaque freeOp : Nat → Byte

/-- The unspecified content of `V_HASVAL` after a reset (R34, R200; U9). Free. -/
opaque freeHasVal : Nat → Bool

/-- The unspecified content of `V_VAL` after a reset (R34, R200) and after `ARM` of a command without a value
(R28, R158; U9). Free. -/
opaque freeVal : Nat → Half

end Sys2Proof.Config
end

