-- ==== Sys2Proof/Syntax.lean ====
section
/-! DEFINITION. What the host can present to the block: the fifteen instructions of the opcode table with their
operands, the requests that encode them, and resets. -/

namespace Sys2Proof

/-- A byte sequence of length 1 or 2: what a decode operation takes and a buffer read yields (R13, R46, R90). -/
inductive Slice where
  | one (b0 : Byte)
  | two (b0 b1 : Byte)
  deriving DecidableEq, Repr

/-- A Command (R150): an opcode byte and an optional 16-bit unsigned value. A Command with value 0 and a Command
without a value are different Commands. -/
structure Command where
  op    : Byte
  value : Option Half
  deriving DecidableEq, Repr

/-- A command frame, format C (R49, R61): exactly four bytes, index 0 first. -/
@[ext] structure CommandFrame where
  opcode    : Byte
  valueLow  : Byte
  valueHigh : Byte
  checksum  : Byte
  deriving DecidableEq, Repr

/-- The instructions: one constructor per row of the opcode table (R72 for the ten operations, R68 and R69 for
the command frames). An RX buffer is a byte list, index 0 first, any length (R40). -/
inductive Instr where
  /-- `DECU8` (R91). -/
  | decU8 (b0 : Byte)
  /-- `DECU16` (R92): low-order byte first. -/
  | decU16 (b0 b1 : Byte)
  /-- `DECS8` (R94). -/
  | decS8 (b0 : Byte)
  /-- `DECS16` (R95): low-order byte first. -/
  | decS16 (b0 b1 : Byte)
  /-- `PARSE` (R110). -/
  | parse (buf : List Byte)
  /-- `ENC` (R130, R135, R136): the value is an optional integer of any size. -/
  | enc (opcode : Byte) (value : Option Int)
  /-- `VERIFY` (R152). -/
  | verify (cmd : Command) (resp : List Byte)
  /-- `ARM` (R158). -/
  | arm (cmd : Command)
  /-- `RESP` (R159). -/
  | resp (buf : List Byte)
  /-- `ABANDON` (R160). -/
  | abandon
  /-- `CMD.A`, telemetry poll (R138): no value is value 0. The row is told by byte 0 alone (R68), so a frame of
  opcode `'A'` has its value bits here too, whatever they are (log 7). -/
  | cmdA (value : Half)
  /-- `CMD.G`, start (R139); the value as in `cmdA`. -/
  | cmdG (value : Half)
  /-- `CMD.x`, stop (R140); the value as in `cmdA`. -/
  | cmdX (value : Half)
  /-- `CMD.e`, set reference value (R141). -/
  | cmdE (value : Half)
  /-- `CMD`, any other command frame (R69); a frame does not tell an omitted value from 0 (R143). -/
  | cmd (op : Byte) (value : Half)
  deriving DecidableEq, Repr

/-- The operands that arrive with an operation (R21), one field per kind of operand. The spec leaves the ports
open (R7, D2): the layout is the model's (DESIGN CHOICE, log 6). Each operation reads only the ones it takes. -/
structure Ports where
  b0      : Byte
  b1      : Byte
  rx      : List Byte
  opcode  : Byte
  value   : Option Int
  command : Command
  deriving DecidableEq, Repr

/-- One request of the host. -/
inductive Request where
  /-- An operation, selected by the 4-bit `OPSEL` (R72). -/
  | op (opsel : BitVec 4) (ports : Ports)
  /-- A command frame to be sent, as the 32-bit word of R64. -/
  | frame (word : BitVec 32)
  /-- The source's `decodeUnsigned` on a byte sequence of any length (R75, R96). -/
  | decodeUnsigned (bytes : List Byte)
  /-- The source's `decodeSigned` on a byte sequence of any length (R75, R96). -/
  | decodeSigned (bytes : List Byte)
  deriving DecidableEq, Repr

/-- What the host does to the block between operations: present a request, or apply a reset (R157, R200). -/
inductive Event where
  | request (r : Request)
  | reset
  deriving DecidableEq, Repr

end Sys2Proof
end

