-- ==== Sys2Proof/Decode.lean ====
section
/-! DEFINITION. The decoder of requests, total and rejecting by name, the encoder beside it, the opcode table's rows,
and the host's table words (spec 30_encoding.md R61, R64, R68, R69, R72, R73, R75). -/

namespace Sys2Proof

/-- Why a request is no instruction. Each is a contract violation of R184; the machine refuses it by the same name. -/
inductive Rejection where
  /-- `OPSEL` 0b0111 or 0b1011 to 0b1111 (R73, U8). -/
  | reservedOpsel
  /-- `decodeUnsigned` or `decodeSigned` of other than 1 or 2 bytes (R96, U1). -/
  | badFieldLength
  /-- A command frame whose byte 0 is no ASCII code: no row of the table has it (R69, U5). -/
  | nonAsciiOpcode
  deriving DecidableEq, Repr

/-- The opcode is an ASCII character's code (R69, R137, G2). -/
def isAscii (op : Byte) : Bool := op.toNat ≤ Config.asciiMax

/-- The operation an `OPSEL` code selects, with its operands taken from the ports (R72, R73). -/
def decodeOp (opsel : BitVec 4) (p : Ports) : Except Rejection Instr :=
  match opsel.toNat with
  | 0b0000 => .ok (.decU8 p.b0)
  | 0b0001 => .ok (.decU16 p.b0 p.b1)
  | 0b0010 => .ok (.decS8 p.b0)
  | 0b0011 => .ok (.decS16 p.b0 p.b1)
  | 0b0100 => .ok (.parse p.rx)
  | 0b0101 => .ok (.enc p.opcode p.value)
  | 0b0110 => .ok (.verify p.command p.rx)
  | 0b1000 => .ok (.arm p.command)
  | 0b1001 => .ok (.resp p.rx)
  | 0b1010 => .ok .abandon
  | _ => .error .reservedOpsel

/-- Field `opcode` of the command word, bits [7:0] (R61). -/
def wordOpcode (w : BitVec 32) : Byte := w.extractLsb' 0 8

/-- The 16-bit value of the command word, bits [23:8] taken as one field (R61). -/
def wordValue (w : BitVec 32) : Half := w.extractLsb' 8 16

/-- Field `checksum` of the command word, bits [31:24] (R61). -/
def wordChecksum (w : BitVec 32) : Byte := w.extractLsb' 24 8

/-- The opcodes of `CMD.A`, `CMD.G`, `CMD.x` and `CMD.e`, whose rows take precedence over the generic `CMD` (R68; byte 0
alone tells the opcode). -/
def hasOwnRow (op : Byte) : Bool :=
  op = Config.opcodeA || op = Config.opcodeG || op = Config.opcodeX || op = Config.opcodeE

/-- The command a frame stands for (R68, R69, R143): byte 0 alone tells the row, bits [23:8] the value (log 7). The checksum
field is no operand: the block computes it (R131, R209), so a presented one is not read (DESIGN CHOICE, log 7). -/
def decodeFrame (w : BitVec 32) : Except Rejection Instr :=
  let op := wordOpcode w
  let value := wordValue w
  if !isAscii op then .error .nonAsciiOpcode
  else if op = Config.opcodeA then .ok (.cmdA value)
  else if op = Config.opcodeG then .ok (.cmdG value)
  else if op = Config.opcodeX then .ok (.cmdX value)
  else if op = Config.opcodeE then .ok (.cmdE value)
  else .ok (.cmd op value)

/-- `decodeUnsigned(b)`: `DECU8` or `DECU16` by the length, outside the contract otherwise (R75, R96). -/
def decodeUnsignedCall : List Byte → Except Rejection Instr
  | [b0] => .ok (.decU8 b0)
  | [b0, b1] => .ok (.decU16 b0 b1)
  | _ => .error .badFieldLength

/-- `decodeSigned(b)`: `DECS8` or `DECS16` by the length, outside the contract otherwise (R75, R96). -/
def decodeSignedCall : List Byte → Except Rejection Instr
  | [b0] => .ok (.decS8 b0)
  | [b0, b1] => .ok (.decS16 b0 b1)
  | _ => .error .badFieldLength

/-- The decoder, total on every request. -/
def decode : Request → Except Rejection Instr
  | .op opsel p => decodeOp opsel p
  | .frame w => decodeFrame w
  | .decodeUnsigned bytes => decodeUnsignedCall bytes
  | .decodeSigned bytes => decodeSignedCall bytes

/-- All operands zero: zero bytes, a buffer of zeros as long as the longest frame the block reads (15 bytes), a
zero opcode, no value. What an operation's unused ports hold in an encoded request. -/
def Ports.zeros : Ports where
  b0 := 0
  b1 := 0
  rx := List.replicate Config.telemetryLen 0
  opcode := 0
  value := none
  command := { op := 0, value := none }

/-- The command word of an opcode and a 16-bit value, from the bit table of R61, as the sum of R64: opcode in [7:0],
value in [23:8], the sum of the three bytes modulo 256 in [31:24]. -/
def commandWord (op : Byte) (value : Half) : BitVec 32 :=
  BitVec.ofNat 32
    (op.toNat + value.toNat * 2 ^ 8 +
      (op.toNat + value.toNat % 256 + value.toNat / 256) % Config.checksumModulus * 2 ^ 24)

/-- The encoder: the request for an instruction, from the tables of R61 and R72. -/
def encode : Instr → Request
  | .decU8 b0 => .op 0b0000 { Ports.zeros with b0 := b0 }
  | .decU16 b0 b1 => .op 0b0001 { Ports.zeros with b0 := b0, b1 := b1 }
  | .decS8 b0 => .op 0b0010 { Ports.zeros with b0 := b0 }
  | .decS16 b0 b1 => .op 0b0011 { Ports.zeros with b0 := b0, b1 := b1 }
  | .parse buf => .op 0b0100 { Ports.zeros with rx := buf }
  | .enc opcode value => .op 0b0101 { Ports.zeros with opcode := opcode, value := value }
  | .verify cmd resp => .op 0b0110 { Ports.zeros with command := cmd, rx := resp }
  | .arm cmd => .op 0b1000 { Ports.zeros with command := cmd }
  | .resp buf => .op 0b1001 { Ports.zeros with rx := buf }
  | .abandon => .op 0b1010 Ports.zeros
  | .cmdA value => .frame (commandWord Config.opcodeA value)
  | .cmdG value => .frame (commandWord Config.opcodeG value)
  | .cmdX value => .frame (commandWord Config.opcodeX value)
  | .cmdE value => .frame (commandWord Config.opcodeE value)
  | .cmd op value => .frame (commandWord op value)

/-- The width, mask and match of an instruction's row, as the opcode table gives them. -/
structure TableRow where
  width   : Nat
  mask    : Nat
  pattern : Nat
  deriving DecidableEq, Repr

/-- The row of the opcode table an instruction belongs to. -/
def tableRow : Instr → TableRow
  | .decU8 _ => { width := 4, mask := 0xF, pattern := 0x0 }
  | .decU16 _ _ => { width := 4, mask := 0xF, pattern := 0x1 }
  | .decS8 _ => { width := 4, mask := 0xF, pattern := 0x2 }
  | .decS16 _ _ => { width := 4, mask := 0xF, pattern := 0x3 }
  | .parse _ => { width := 4, mask := 0xF, pattern := 0x4 }
  | .enc _ _ => { width := 4, mask := 0xF, pattern := 0x5 }
  | .verify _ _ => { width := 4, mask := 0xF, pattern := 0x6 }
  | .arm _ => { width := 4, mask := 0xF, pattern := 0x8 }
  | .resp _ => { width := 4, mask := 0xF, pattern := 0x9 }
  | .abandon => { width := 4, mask := 0xF, pattern := 0xA }
  | .cmdA _ => { width := 32, mask := 0xFF, pattern := 0x41 }
  | .cmdG _ => { width := 32, mask := 0xFF, pattern := 0x47 }
  | .cmdX _ => { width := 32, mask := 0xFF, pattern := 0x78 }
  | .cmdE _ => { width := 32, mask := 0xFF, pattern := 0x65 }
  | .cmd _ _ => { width := 32, mask := 0x80, pattern := 0x00 }

/-- A request carries a row's fixed bits, in a code of the row's width. -/
def Request.fits (r : Request) (row : TableRow) : Prop :=
  match r with
  | .op opsel _ => row.width = 4 ∧ opsel.toNat &&& row.mask = row.pattern
  | .frame w => row.width = 32 ∧ w.toNat &&& row.mask = row.pattern
  | .decodeUnsigned _ => False
  | .decodeSigned _ => False

/-- The request a table word stands for, its operands all zero: an operation's `OPSEL` in one byte (bits [3:0], the
rest 0), or a command frame's 32 bits. Any other word is no row's. -/
def tableRequest (nbits w : Nat) : Option Request :=
  if nbits ≤ 8 then
    if w < 16 then some (.op (BitVec.ofNat 4 w) Ports.zeros) else none
  else if nbits = 32 ∧ w < 2 ^ 32 then some (.frame (BitVec.ofNat 32 w))
  else none

/-- The instruction the decoder reads from a table word. -/
def decodeTableWord (nbits w : Nat) : Option Instr :=
  match tableRequest nbits w with
  | none => none
  | some r =>
    match decode r with
    | .ok i => some i
    | .error _ => none

end Sys2Proof
end

