-- ==== Sys2Proof/Machine/State.lean ====
section
/-! DEFINITION. The state of the machine as plain data: the verifier slot (spec 10_state.md R24), which is all the
block holds, and the host's side of the interface; the results the block delivers; the reasons a step stops; reset. -/

namespace Sys2Proof.Machine

/-- `V_STATE`: the five states of the verification state machine (R25). -/
inductive VState where
  /-- No command outstanding, none verified since reset or abandon. -/
  | idle
  /-- A command is outstanding; its reply has not been delivered. -/
  | awaitingResponse
  /-- Terminal: the reply echoed the opcode and, for a parameterized command, the value. -/
  | matched
  /-- Terminal: byte 0 of the reply differed from the opcode sent. -/
  | opcodeMismatch
  /-- Terminal: the opcode matched and the echoed value differed. -/
  | valueMismatch
  deriving DecidableEq, Repr

/-- The verifier slot (R24): the block's only state. -/
@[ext] structure Slot where
  /-- `V_STATE` (R25). -/
  vState  : VState
  /-- `V_OP` (R26). -/
  vOp     : Byte
  /-- `V_HASVAL` (R27). -/
  vHasVal : Bool
  /-- `V_VAL` (R28). -/
  vVal    : Half
  deriving DecidableEq, Repr

/-- The eight decoded integers of a telemetry frame, named by position (R48, R116). -/
@[ext] structure TelemetryFrame where
  f0 : Int
  f1 : Int
  f2 : Int
  f3 : Int
  f4 : Int
  f5 : Int
  f6 : Int
  f7 : Int
  deriving DecidableEq, Repr

/-- The outcome of a verification (R151). The two numbers of a value mismatch are the value sent and the value
decoded from the reply. -/
inductive VerificationResult where
  | matched
  | opcodeMismatch
  | valueMismatch (expected actual : Nat)
  deriving DecidableEq, Repr

/-- What one operation delivers to the host (R72, column result; R23). -/
inductive Result where
  /-- A decoded integer (`DECU8`, `DECU16`, `DECS8`, `DECS16`; R99). -/
  | integer (n : Int)
  /-- `Ok` of `PARSE` (R110). -/
  | telemetry (f : TelemetryFrame)
  /-- The error result of `PARSE` (R181): no payload. -/
  | frameTooShort
  /-- A command frame handed to the transport (R130, R134). -/
  | commandFrame (f : CommandFrame)
  /-- The result of `VERIFY` or `RESP` (R182). -/
  | verification (r : VerificationResult)
  deriving DecidableEq, Repr

/-- The machine. `slot` is the block's state; the other three are the model's own, not registers of the block. -/
@[ext]
structure State where
  /-- The verifier slot (R24). -/
  slot      : Slot
  /-- The number of free values used so far (log 2). -/
  draws     : Nat
  /-- The host's side: what it presents next, next first (log 4). -/
  pending   : List Event
  /-- The host's side: what was delivered to it, oldest first (log 5). No operation reads it (R21, R32). -/
  delivered : List Result
  deriving DecidableEq, Repr

/-- The faults of the model. The block itself has none (R180, R187). -/
inductive Fault where
  /-- A read outside a frame buffer, where `MemRead` is not defined (R42). Raised by `memRead1` and `memRead2` only;
  no operation reaches it. Safe: the model stops where the spec gives no meaning. -/
  | readOutsideBuffer
  deriving DecidableEq, Repr

/-- The refusals: the contract violations of R184, to which the spec gives no meaning ("refuse"). All are safe: the
model stops and says nothing of the state afterwards. -/
inductive Refusal where
  /-- Raised by `exec` for an instruction without a meaning. Safe. No instruction of this model is left so. -/
  | notModelled (mnemonic : String)
  /-- `BadFieldLength` (R96, U1): raised by a step on `decodeUnsigned` or `decodeSigned` of other than 1 or 2 bytes. Safe. -/
  | badFieldLength
  /-- `ShortResponse` (R153, U2): raised by `VERIFY` and `RESP`. Safe. -/
  | shortResponse
  /-- `CommandOutstanding` (R158, U3): raised by `ARM`. Safe. -/
  | commandOutstanding
  /-- `NothingOutstanding` (R159, U4): raised by `RESP`. Safe. -/
  | nothingOutstanding
  /-- `NonAsciiOpcode` (R137, U5): raised by `ENC`, `VERIFY`, `ARM`, `CMD` and by a step on a command frame. Safe. -/
  | nonAsciiOpcode
  /-- `NegativeValue` (R136, U6): raised by `ENC`. Safe. -/
  | negativeValue
  /-- `ReservedOpsel` (R73, U8): raised by a step on a reserved `OPSEL`. Safe. -/
  | reservedOpsel
  deriving DecidableEq, Repr

/-- The machine right after reset (R34, R200): `V_STATE` is `Idle`. The other three slot registers are unspecified
there; 0 is the model's named value (DESIGN CHOICE, log 3). Nothing presented, nothing delivered (log 4, log 5). -/
def State.reset : State where
  slot := { vState := .idle, vOp := 0, vHasVal := false, vVal := 0 }
  draws := 0
  pending := []
  delivered := []

end Sys2Proof.Machine
end

