-- ==== Sys2Proof/Machine/Ops.lean ====
section
/-! DEFINITION. The named operations the meanings are built from: sequencing, buffer reads and writes (spec R13, R42),
delivery of a result, the error result (R181, R187), writes of the slot (R29), reset (R200), taking what the host
presents. There is no return from an error: nothing was entered (R188). -/

namespace Sys2Proof.Machine

/-- What a computation answers: a value, a fault or a refusal. -/
abbrev Answer (α : Type) := Host.Outcome α Fault Refusal

/-- Go on with the value, or stop as the first computation stopped. -/
def andThen {α β : Type} (a : Answer α) (next : α → Answer β) : Answer β :=
  match a with
  | .next x => next x
  | .fault f => .fault f
  | .refused r => .refused r

/-- Refuse unless a precondition holds (R184). -/
def require {α : Type} (precondition : Bool) (reason : Refusal) (rest : Answer α) : Answer α :=
  if precondition then rest else .refused reason

/-- `MemRead(buf, off, 1)` (R13, R42). -/
def memRead1 (buf : List Byte) (off : Nat) : Answer Slice :=
  match buf[off]? with
  | some b0 => .next (.one b0)
  | none => .fault .readOutsideBuffer

/-- `MemRead(buf, off, 2)` (R13, R42): index order kept. -/
def memRead2 (buf : List Byte) (off : Nat) : Answer Slice :=
  match buf[off]?, buf[off + 1]? with
  | some b0, some b1 => .next (.two b0 b1)
  | _, _ => .fault .readOutsideBuffer

/-- `MemWrite(f, off, 1, v)` on the encoder's own 4-byte frame (R13). -/
def memWrite (f : CommandFrame) (off : Fin 4) (v : Byte) : CommandFrame :=
  match off with
  | 0 => { f with opcode := v }
  | 1 => { f with valueLow := v }
  | 2 => { f with valueHigh := v }
  | 3 => { f with checksum := v }

/-- Deliver a result to the host (R21: results leave with the operation). -/
def State.deliver (s : State) (r : Result) : State :=
  { s with delivered := s.delivered ++ [r] }

/-- `raise FrameTooShort` (R13, R181, R187): the operation's whole result. It saves nothing, writes no register,
enters nothing; the next operation is presented as after any result (R188). -/
def raiseFrameTooShort (s : State) : Answer State :=
  .next (s.deliver .frameTooShort)

/-- `S.V_STATE <- v`. -/
def State.setVState (s : State) (v : VState) : State :=
  { s with slot := { s.slot with vState := v } }

/-- Record a command in the slot and enter `AwaitingResponse` (R158). Without a value the content of `V_VAL` is
unspecified: a free value (log 2). -/
def State.recordCommand (s : State) (cmd : Command) : State :=
  match cmd.value with
  | some v =>
    { s with slot := { vState := .awaitingResponse, vOp := cmd.op, vHasVal := true, vVal := v } }
  | none =>
    { s with
      slot := { vState := .awaitingResponse, vOp := cmd.op, vHasVal := false, vVal := Config.freeVal s.draws }
      draws := s.draws + 1 }

/-- A reset applied by the host (R200): `V_STATE` becomes `Idle`, the other three registers are unspecified (free
values, log 2), no result is delivered. What the host still presents is the host's. -/
def State.applyReset (s : State) : State :=
  { s with
    slot :=
      { vState := .idle
        vOp := Config.freeOp s.draws
        vHasVal := Config.freeHasVal s.draws
        vVal := Config.freeVal s.draws }
    draws := s.draws + 1 }

/-- The refusal a request outside the encoding meets: the same reason of R184. -/
def refusalOf : Rejection → Refusal
  | .reservedOpsel => .reservedOpsel
  | .badFieldLength => .badFieldLength
  | .nonAsciiOpcode => .nonAsciiOpcode

/-- Take what the host presents (R22, R53: one at a time, in issue order) and give it to the right continuation,
with the event taken off the list. -/
def takeEvent {α : Type} (s : State) (waiting : α) (onReset : State → α) (onInstr : Instr → State → α)
    (onReject : Refusal → α) : α :=
  match s.pending with
  | [] => waiting
  | .reset :: rest => onReset { s with pending := rest }
  | .request r :: rest =>
    match decode r with
    | .ok i => onInstr i { s with pending := rest }
    | .error e => onReject (refusalOf e)

/-- Present a request in front of everything else. -/
def State.present (s : State) (r : Request) : State :=
  { s with pending := .request r :: s.pending }

end Sys2Proof.Machine
end

