-- ==== Sys2Proof/Machine/Operands.lean ====
section
/-! DEFINITION. Operand forms: the decode of a 1- or 2-byte slice (spec R65, R66, R90, R93), the split of a value
(R65), the value operand of `ENC` (R135, R136), the command the slot holds (R159), the reply's least length (R153). -/

namespace Sys2Proof.Machine

/-- Bit width of a slice: 8 times the byte count (R93). -/
def sliceWidth : Slice → Nat
  | .one _ => 8
  | .two _ _ => 16

/-- `DECU(b)` (R90): little-endian, the byte at the lower index is the low-order one. -/
def decU : Slice → Nat
  | .one b0 => b0.toNat
  | .two b0 b1 => b0.toNat + (b1.toNat <<< 8)

/-- `DECS(b)` (R93): test the sign bit, reinterpret as two's complement if it is set. -/
def decS (b : Slice) : Int :=
  let u := decU b
  let w := sliceWidth b
  if u.testBit (w - 1) then -((2 ^ w : Nat) : Int) + ((u &&& (2 ^ w - 1) : Nat) : Int) else (u : Int)

/-- `value & 0xFF` (R65). -/
def lowByte (value : Nat) : Byte := BitVec.ofNat 8 (value &&& 0xFF)

/-- `(value >> 8) & 0xFF` (R65). -/
def highByte (value : Nat) : Byte := BitVec.ofNat 8 ((value >>> 8) &&& 0xFF)

/-- The optional value of `ENC` is not negative (R136, U6). -/
def nonNegative : Option Int → Bool
  | none => true
  | some v => 0 ≤ v

/-- The value `ENC` encodes: an omitted one is 0 (R135). Used on values that are not negative only. -/
def valueOperand : Option Int → Nat
  | none => 0
  | some v => v.toNat

/-- The recorded command: `V_OP`, with `V_VAL` when `V_HASVAL` is 1 (R159, R27). -/
def Slot.command (slot : Slot) : Command where
  op := slot.vOp
  value := if slot.vHasVal then some slot.vVal else none

/-- The reply has the least length the command needs (R153): it depends on the command alone. -/
def replyLongEnough (cmd : Command) (resp : List Byte) : Bool :=
  Config.ackMinLen cmd.value.isSome ≤ resp.length

/-- A command frame as one 32-bit number: byte `i` in bits `[8i+7 : 8i]` (R64). -/
def frameWord (f : CommandFrame) : BitVec 32 :=
  BitVec.ofNat 32
    (f.opcode.toNat + f.valueLow.toNat * 2 ^ 8 + f.valueHigh.toNat * 2 ^ 16 + f.checksum.toNat * 2 ^ 24)

end Sys2Proof.Machine
end

