-- ==== Sys2Proof/Machine/CommandEncoder.lean ====
section
/-! DEFINITION. The CommandEncoder (spec 42_command_encoder.md): `ENC`, and the command frames `CMD.A`, `CMD.G`,
`CMD.x`, `CMD.e`, `CMD`. Executing a command-frame row is the block building that frame and handing it to the
transport (log 8); the block does not send it (R134) and does not arm the verifier (R142). -/

namespace Sys2Proof.Machine

/-- The encoder's algorithm (R130): four byte writes, the checksum summed over the bytes as stored (R131). -/
def encodeFrame (opcode : Byte) (value : Nat) : CommandFrame :=
  let f := memWrite { opcode := 0, valueLow := 0, valueHigh := 0, checksum := 0 } 0 opcode
  let f := memWrite f 1 (lowByte value)
  let f := memWrite f 2 (highByte value)
  memWrite f 3
    (BitVec.ofNat 8 ((f.opcode.toNat + f.valueLow.toNat + f.valueHigh.toNat) % Config.checksumModulus))

/-- Encode a command and hand the frame over (R134). -/
def deliverFrame (opcode : Byte) (value : Nat) (s : State) : Answer State :=
  .next (s.deliver (.commandFrame (encodeFrame opcode value)))

/-- `ENC` (R130): an omitted value is 0 (R135), a value of more than 16 bits is masked (R136); an opcode that is not
ASCII and a negative value are outside the contract (R136, R137). -/
def execEnc (opcode : Byte) (value : Option Int) (s : State) : Answer State :=
  require (isAscii opcode) .nonAsciiOpcode <|
  require (nonNegative value) .negativeValue <|
  deliverFrame opcode (valueOperand value) s

/-- `CMD.A` (R138): no value is value 0. -/
def execCmdA (value : Half) (s : State) : Answer State := deliverFrame Config.opcodeA value.toNat s

/-- `CMD.G` (R139). -/
def execCmdG (value : Half) (s : State) : Answer State := deliverFrame Config.opcodeG value.toNat s

/-- `CMD.x` (R140). -/
def execCmdX (value : Half) (s : State) : Answer State := deliverFrame Config.opcodeX value.toNat s

/-- `CMD.e` (R141). -/
def execCmdE (value : Half) (s : State) : Answer State := deliverFrame Config.opcodeE value.toNat s

/-- `CMD` (R69): the same rules for every ASCII opcode; others are outside the contract (U5). -/
def execCmd (op : Byte) (value : Half) (s : State) : Answer State :=
  require (isAscii op) .nonAsciiOpcode <| deliverFrame op value.toNat s

end Sys2Proof.Machine
end

