-- ==== Sys2Proof/Machine/FrameParser.lean ====
section
/-! DEFINITION. The FrameParser (spec 41_frame_parser.md): `PARSE`. -/

namespace Sys2Proof.Machine

/-- The unsigned field of two bytes at an offset (R48). -/
def fieldU16 (buf : List Byte) (off : Nat) : Answer Int :=
  andThen (memRead2 buf off) fun b => .next (decU b)

/-- The signed field of two bytes at an offset (R48). -/
def fieldS16 (buf : List Byte) (off : Nat) : Answer Int :=
  andThen (memRead2 buf off) fun b => .next (decS b)

/-- The unsigned field of one byte at an offset (R48). -/
def fieldU8 (buf : List Byte) (off : Nat) : Answer Int :=
  andThen (memRead1 buf off) fun b => .next (decU b)

/-- The eight decodes at their fixed offsets (R110, R48). -/
def readTelemetry (buf : List Byte) : Answer TelemetryFrame :=
  andThen (fieldU16 buf 0) fun f0 =>
  andThen (fieldU16 buf 2) fun f1 =>
  andThen (fieldU16 buf 4) fun f2 =>
  andThen (fieldU16 buf 6) fun f3 =>
  andThen (fieldS16 buf 8) fun f4 =>
  andThen (fieldU16 buf 10) fun f5 =>
  andThen (fieldU16 buf 12) fun f6 =>
  andThen (fieldU8 buf 14) fun f7 =>
  .next { f0 := f0, f1 := f1, f2 := f2, f3 := f3, f4 := f4, f5 := f5, f6 := f6, f7 := f7 }

/-- `PARSE` (R110): the length check comes first and is the only check (R112); bytes from index 15 on are not read
(R113). -/
def execParse (buf : List Byte) (s : State) : Answer State :=
  if buf.length < Config.telemetryLen then raiseFrameTooShort s
  else andThen (readTelemetry buf) fun f => .next (s.deliver (.telemetry f))

end Sys2Proof.Machine
end

