-- ==== Sys2Proof/Machine/IntegerDecoder.lean ====
section
/-! DEFINITION. The IntegerDecoder (spec 40_integer_decoder.md): `DECU8`, `DECU16`, `DECS8`, `DECS16`. -/

namespace Sys2Proof.Machine

/-- `DECU8` (R91). -/
def execDecU8 (b0 : Byte) (s : State) : Answer State :=
  .next (s.deliver (.integer (decU (.one b0))))

/-- `DECU16` (R92). -/
def execDecU16 (b0 b1 : Byte) (s : State) : Answer State :=
  .next (s.deliver (.integer (decU (.two b0 b1))))

/-- `DECS8` (R94). -/
def execDecS8 (b0 : Byte) (s : State) : Answer State :=
  .next (s.deliver (.integer (decS (.one b0))))

/-- `DECS16` (R95). -/
def execDecS16 (b0 b1 : Byte) (s : State) : Answer State :=
  .next (s.deliver (.integer (decS (.two b0 b1))))

end Sys2Proof.Machine
end

