-- ==== Sys2Proof/Machine/Flags.lean ====
section
/-! DEFINITION. The status outputs, the block's only flag-like values (spec 10_state.md R23, R25; 60_exceptions.md
R180, R181): the tag of a verification, the numeric codes. -/

namespace Sys2Proof.Machine

/-- The tag of a verification result, as `V_STATE` keeps it (R23, R159). -/
def resultTag : VerificationResult → VState
  | .matched => .matched
  | .opcodeMismatch => .opcodeMismatch
  | .valueMismatch _ _ => .valueMismatch

/-- The numeric codes of `V_STATE` (R25). -/
def vStateCode : VState → BitVec 3
  | .idle => 0
  | .awaitingResponse => 1
  | .matched => 2
  | .opcodeMismatch => 3
  | .valueMismatch => 4

/-- `V_STATE` as the host reads it as status (R24, R25, R190). -/
def statusOutput (s : State) : BitVec 3 := vStateCode s.slot.vState

/-- The error output that goes with a result: 1 for `FrameTooShort`, else 0 (R181, R182). -/
def errorCode : Result → Nat
  | .frameTooShort => 1
  | .integer _ => 0
  | .telemetry _ => 0
  | .commandFrame _ => 0
  | .verification _ => 0

end Sys2Proof.Machine
end

