-- ==== Sys2Proof/Machine/ResponseVerifier.lean ====
section
/-! DEFINITION. The ResponseVerifier (spec 43_response_verifier.md): `VERIFY`, `ARM`, `RESP`, `ABANDON`. -/

namespace Sys2Proof.Machine

/-- The comparison of the value echo, step 3 of the transition rule (R152, R155). -/
def checkValue (sent : Half) (resp : List Byte) : Answer VerificationResult :=
  andThen (memRead2 resp 1) fun b =>
    if decU b = sent.toNat then .next .matched else .next (.valueMismatch sent.toNat (decU b))

/-- The transition rule (R152): the reply's length (R153), then the opcode, then the value if there is one (R154). -/
def verifyReply (cmd : Command) (resp : List Byte) : Answer VerificationResult :=
  require (replyLongEnough cmd resp) .shortResponse <|
  andThen (memRead1 resp 0) fun b =>
    if decU b ≠ cmd.op.toNat then .next .opcodeMismatch
    else
      match cmd.value with
      | none => .next .matched
      | some sent => checkValue sent resp

/-- `VERIFY` (R152): the pure form, which does not touch the slot. -/
def execVerify (cmd : Command) (resp : List Byte) (s : State) : Answer State :=
  require (isAscii cmd.op) .nonAsciiOpcode <|
  andThen (verifyReply cmd resp) fun r => .next (s.deliver (.verification r))

/-- `ARM` (R158). The slot is looked at first (R186); log 10. -/
def execArm (cmd : Command) (s : State) : Answer State :=
  require (s.slot.vState ≠ .awaitingResponse) .commandOutstanding <|
  require (isAscii cmd.op) .nonAsciiOpcode <|
  .next (s.recordCommand cmd)

/-- `RESP` (R159): the one step of the state machine on the recorded command. It writes `V_STATE` alone. -/
def execResp (buf : List Byte) (s : State) : Answer State :=
  require (s.slot.vState = .awaitingResponse) .nothingOutstanding <|
  andThen (verifyReply s.slot.command buf) fun r =>
    .next ((s.setVState (resultTag r)).deliver (.verification r))

/-- `ABANDON` (R160): frees an outstanding command without a result; does nothing in any other state. -/
def execAbandon (s : State) : Answer State :=
  .next (if s.slot.vState = .awaitingResponse then s.setVState .idle else s)

end Sys2Proof.Machine
end

