-- ==== Sys2Proof/Machine/Dispatch.lean ====
section
/-! DEFINITION. The dispatch: one arm per row of the opcode table. -/

namespace Sys2Proof.Machine

def exec (i : Instr) (s : State) : Host.Outcome State Fault Refusal :=
  match i with
  | .decU8 b0 => Sys2Proof.Machine.execDecU8 b0 s
  | .decU16 b0 b1 => Sys2Proof.Machine.execDecU16 b0 b1 s
  | .decS8 b0 => Sys2Proof.Machine.execDecS8 b0 s
  | .decS16 b0 b1 => Sys2Proof.Machine.execDecS16 b0 b1 s
  | .parse buf => Sys2Proof.Machine.execParse buf s
  | .enc opcode value => Sys2Proof.Machine.execEnc opcode value s
  | .verify cmd resp => Sys2Proof.Machine.execVerify cmd resp s
  | .arm cmd => Sys2Proof.Machine.execArm cmd s
  | .resp buf => Sys2Proof.Machine.execResp buf s
  | .abandon => Sys2Proof.Machine.execAbandon s
  | .cmdA value => Sys2Proof.Machine.execCmdA value s
  | .cmdG value => Sys2Proof.Machine.execCmdG value s
  | .cmdX value => Sys2Proof.Machine.execCmdX value s
  | .cmdE value => Sys2Proof.Machine.execCmdE value s
  | .cmd op value => Sys2Proof.Machine.execCmd op value s

end Sys2Proof.Machine
end

