-- ==== Sys2Proof/Machine/Step.lean ====
section
/-! DEFINITION. One step: take what the host presents and do it (spec 00_scope.md R8, 20_memory.md R53). -/

namespace Sys2Proof.Machine

/-- One step. With nothing presented the block waits and nothing changes (R9, R201). -/
def step (s : State) : Host.Outcome State Fault Refusal :=
  takeEvent s (.next s) (fun s' => .next s'.applyReset) exec .refused

/-- `s` with the request of a table word presented in front of everything else. -/
def State.withFetchWord (s : State) (nbits w : Nat) : State :=
  match tableRequest nbits w with
  | some r => s.present r
  | none => s

end Sys2Proof.Machine
end

