-- ==== Sys2Proof/Machine/Pseudo.lean ====
section
/-! DEFINITION. The host-level pseudo-operations of spec 30_encoding.md R75 as lists of what the host presents. The
host's own steps in between (write, wait, read) are no operations of the block; a reply read by the host is a
parameter. `decodeUnsigned(b)` and `decodeSigned(b)` are requests of their own (Decode.lean). -/

namespace Sys2Proof.Machine

/-- What the host presents to have these instructions executed, in this order. -/
def presentAll (is : List Instr) : List Event := is.map fun i => .request (encode i)

/-- `POLL` (R75): encode the poll command; parse what was read. -/
def pollScript (buf : List Byte) : List Event :=
  presentAll [.enc Config.opcodeA none, .parse buf]

/-- `EXCHANGE cmd` (R75): encode the command, arm the verifier with it, deliver the reply that was read. -/
def exchangeScript (cmd : Command) (reply : List Byte) : List Event :=
  presentAll [.enc cmd.op (cmd.value.map fun v => (v.toNat : Int)), .arm cmd, .resp reply]

/-- `ISET buf` (R75): `DECU16` of bytes `[1..3)` of the reply to `'G'`. That the reply has at least 3 bytes is the
caller's precondition (R163), to whose breach the spec gives no consequence: then there is no `DECU16` to present, and
the model gives no script (DESIGN CHOICE, log 12). -/
def isetScript : List Byte → Option (List Event)
  | _ :: b1 :: b2 :: _ => some (presentAll [.decU16 b1 b2])
  | _ => none

end Sys2Proof.Machine
end

