-- ==== Sys2Proof/WellFormed.lean ====
section
/-! DEFINITION. The checks on an instruction as it is presented: the operand preconditions of spec 60_exceptions.md
R184 that do not mention the slot, and which command frames have a row of their own (R68, R69). -/

namespace Sys2Proof

/-- An instruction as the contract lets the host present it, whatever the slot holds. -/
def Instr.wellFormed : Instr → Bool
  | .decU8 _ => true
  | .decU16 _ _ => true
  | .decS8 _ => true
  | .decS16 _ _ => true
  | .parse _ => true
  | .enc opcode value => isAscii opcode && Machine.nonNegative value
  | .verify command reply => isAscii command.op && Machine.replyLongEnough command reply
  | .arm command => isAscii command.op
  | .resp _ => true
  | .abandon => true
  | .cmdA _ => true
  | .cmdG _ => true
  | .cmdX _ => true
  | .cmdE _ => true
  | .cmd op _ => isAscii op && !hasOwnRow op

end Sys2Proof
end

