-- ==== Sys2Proof/Safety.lean ====
section
/-! DEFINITION. What counts as a safe run, in the terms the statements use: the contract of an operation (spec
60_exceptions.md R184), the invariant of the slot, reachability. -/

namespace Sys2Proof.Machine

/-- Every precondition of R184 holds for this operation in this state. -/
def InContract (i : Instr) (s : State) : Prop :=
  match i with
  | .decU8 _ => True
  | .decU16 _ _ => True
  | .decS8 _ => True
  | .decS16 _ _ => True
  | .parse _ => True
  | .enc opcode value => isAscii opcode = true ∧ nonNegative value = true
  | .verify cmd resp => isAscii cmd.op = true ∧ replyLongEnough cmd resp = true
  | .arm cmd => s.slot.vState ≠ .awaitingResponse ∧ isAscii cmd.op = true
  | .resp buf => s.slot.vState = .awaitingResponse ∧ replyLongEnough s.slot.command buf = true
  | .abandon => True
  | .cmdA _ => True
  | .cmdG _ => True
  | .cmdX _ => True
  | .cmdE _ => True
  | .cmd op _ => isAscii op = true

/-- The pure operations (R20, R157): all but `ARM`, `RESP` and `ABANDON`. -/
def IsPure (i : Instr) : Prop :=
  match i with
  | .arm _ => False
  | .resp _ => False
  | .abandon => False
  | .decU8 _ => True
  | .decU16 _ _ => True
  | .decS8 _ => True
  | .decS16 _ _ => True
  | .parse _ => True
  | .enc _ _ => True
  | .verify _ _ => True
  | .cmdA _ => True
  | .cmdG _ => True
  | .cmdX _ => True
  | .cmdE _ => True
  | .cmd _ _ => True

/-- The invariant of the slot. In every state but `Idle` the slot holds a command that `ARM` recorded, so its opcode
is ASCII (R26, R150); `ValueMismatch` is entered only for a command that carries a value (R25). -/
def SlotInv (slot : Slot) : Prop :=
  (slot.vState ≠ .idle → isAscii slot.vOp = true) ∧
  (slot.vState = .valueMismatch → slot.vHasVal = true)

/-- Two slots that no operation can tell apart: the same `V_STATE`, and with a command outstanding the same command.
Outside `AwaitingResponse` the other three registers are not read (R34), nor is `V_VAL` when `V_HASVAL` is 0 (R28). -/
def SlotsAgree (a b : Slot) : Prop :=
  b.vState = a.vState ∧
  (a.vState = .awaitingResponse →
    b.vOp = a.vOp ∧ b.vHasVal = a.vHasVal ∧ (a.vHasVal = true → b.vVal = a.vVal))

/-- Two states that agree in all but what the spec leaves unspecified in the slot, and in how many free values were
used. -/
def Indistinguishable (s t : State) : Prop :=
  t.pending = s.pending ∧ t.delivered = s.delivered ∧ SlotsAgree s.slot t.slot

/-- The states a run can reach from `s`, the host adding to what it presents at any time (R9: it issues operations
when it chooses; R204: with any operands). -/
inductive Reaches (s : State) : State → Prop where
  | start : Reaches s s
  | step {t u : State} : Reaches s t → step t = .next u → Reaches s u
  | host {t : State} (events : List Event) : Reaches s t → Reaches s { t with pending := t.pending ++ events }

end Sys2Proof.Machine
end

