-- ==== Sys2Proof/Certificates/Slice0/Obligations.lean ====
section
/-! DEFINITION. The statements for the provers. "Rule" is a numbered rule of spec/. A statement whose docstring says
"derived" rests on a rule the spec marks as its own derivation or decision, or on a choice of the model that it names. -/

open Sys2Proof Sys2Proof.Machine

/- ### IntegerDecoder -/

/-- Rule R90, `decodeUnsigned` on 1 or 2 bytes: the result, its bound, and nothing else changes. -/
def Obligations.DecodeUnsignedIsLittleEndian : Prop :=
  ∀ (s : State) (rest : List Event) (b0 b1 : Byte),
    step { s with pending := .request (.decodeUnsigned [b0]) :: rest } =
      .next { s with pending := rest, delivered := s.delivered ++ [.integer b0.toNat] } ∧
    step { s with pending := .request (.decodeUnsigned [b0, b1]) :: rest } =
      .next { s with
        pending := rest, delivered := s.delivered ++ [.integer (b0.toNat + b1.toNat * 2 ^ 8 : Nat)] } ∧
    b0.toNat < 2 ^ (8 * 1) ∧ b0.toNat + b1.toNat * 2 ^ 8 < 2 ^ (8 * 2)

/-- Rule R93, `decodeSigned` on 1 or 2 bytes: the sign bit is bit width-1 of the unsigned value; the two
examples; the range of the result. -/
def Obligations.DecodeSignedIsTwosComplement : Prop :=
  (∀ (s : State) (rest : List Event) (b0 : Byte),
    step { s with pending := .request (.decodeSigned [b0]) :: rest } =
      .next { s with
        pending := rest
        delivered := s.delivered ++
          [.integer (if b0.toNat.testBit 7 then -2 ^ 8 + (b0.toNat : Int) else b0.toNat)] }) ∧
  (∀ (s : State) (rest : List Event) (b0 b1 : Byte) (u : Nat), u = b0.toNat + b1.toNat * 2 ^ 8 →
    step { s with pending := .request (.decodeSigned [b0, b1]) :: rest } =
      .next { s with
        pending := rest
        delivered := s.delivered ++ [.integer (if u.testBit 15 then -2 ^ 16 + (u : Int) else u)] }) ∧
  decS (.two 0xFF 0xFF) = -1 ∧ decS (.one 0x80) = -128 ∧
  ∀ b : Slice, -2 ^ (sliceWidth b - 1) ≤ decS b ∧ decS b ≤ 2 ^ (sliceWidth b - 1) - 1

/-- Rule R96: every other length is refused, by both functions, with no result; the four fixed-length operations
always answer an integer, so neither the violation nor `FrameTooShort` arises in them. -/
def Obligations.OtherFieldLengthsAreRefused : Prop :=
  (∀ (s : State) (rest : List Event) (bytes : List Byte), bytes.length ≠ 1 → bytes.length ≠ 2 →
    step { s with pending := .request (.decodeUnsigned bytes) :: rest } = .refused .badFieldLength ∧
    step { s with pending := .request (.decodeSigned bytes) :: rest } = .refused .badFieldLength) ∧
  (∀ (s : State) (b0 b1 : Byte) (i : Instr), i ∈ [.decU8 b0, .decU16 b0 b1, .decS8 b0, .decS16 b0 b1] →
    ∃ n : Int, exec i s = .next { s with delivered := s.delivered ++ [.integer n] })

/-- Derived (40_integer_decoder.md section 2; the OPSEL codes are the spec's decision D3): the four operations, their
codes, their results, and their frame: nothing but the delivery changes. -/
def Obligations.FixedLengthDecodesComplete : Prop :=
  ∀ (s : State) (p : Ports) (b0 b1 : Byte),
    decode (.op 0b0000 p) = .ok (.decU8 p.b0) ∧
    decode (.op 0b0001 p) = .ok (.decU16 p.b0 p.b1) ∧
    decode (.op 0b0010 p) = .ok (.decS8 p.b0) ∧
    decode (.op 0b0011 p) = .ok (.decS16 p.b0 p.b1) ∧
    exec (.decU8 b0) s = .next { s with delivered := s.delivered ++ [.integer b0.toNat] } ∧
    exec (.decU16 b0 b1) s =
      .next { s with delivered := s.delivered ++ [.integer (b0.toNat + 256 * b1.toNat : Nat)] } ∧
    exec (.decS8 b0) s =
      .next { s with
        delivered := s.delivered ++ [.integer (if b0.toNat < 128 then b0.toNat else (b0.toNat : Int) - 256)] } ∧
    exec (.decS16 b0 b1) s =
      .next { s with
        delivered := s.delivered ++
          [.integer (b0.toNat + 256 * (if b1.toNat < 128 then (b1.toNat : Int) else (b1.toNat : Int) - 256))] }

/-- Derived (40_integer_decoder.md section 4, marked derived there): range, agreement below the sign bit, offset above
it, congruence, injectivity, the 17-bit bound, for slices of both lengths. -/
def Obligations.DecodeArithmeticLaws : Prop :=
  ∀ b : Slice,
    decU b < 2 ^ sliceWidth b ∧
    -2 ^ (sliceWidth b - 1) ≤ decS b ∧ decS b < 2 ^ (sliceWidth b - 1) ∧
    (decU b < 2 ^ (sliceWidth b - 1) → decS b = decU b) ∧
    (2 ^ (sliceWidth b - 1) ≤ decU b → decS b = (decU b : Int) - 2 ^ sliceWidth b) ∧
    decS b % 2 ^ sliceWidth b = decU b ∧
    -32768 ≤ decS b ∧ (decU b : Int) ≤ 65535 ∧
    ∀ c : Slice, sliceWidth c = sliceWidth b →
      (decU c = decU b → c = b) ∧ (decS c = decS b → c = b)

/-- Rule R98: the four operations are total, write no state, and give the same integer for the same bytes whatever
the state. -/
def Obligations.DecodesAreTotalAndPure : Prop :=
  ∀ (b0 b1 : Byte) (i : Instr), i ∈ [.decU8 b0, .decU16 b0 b1, .decS8 b0, .decS16 b0 b1] →
    ∃ n : Int, ∀ s : State, exec i s = .next { s with delivered := s.delivered ++ [.integer n] }

/-- Rule R65: assembling two bytes, splitting a value, and that the two are inverse. -/
def Obligations.AssemblyInvertsSplit : Prop :=
  (∀ lo hi : Byte, decU (.two lo hi) = lo.toNat + hi.toNat * 2 ^ 8 ∧ decU (.two lo hi) ≤ 65535 ∧
    lowByte (decU (.two lo hi)) = lo ∧ highByte (decU (.two lo hi)) = hi) ∧
  (∀ v : Nat, v ≤ 65535 →
    (lowByte v).toNat = v % 256 ∧ (highByte v).toNat = v / 256 ∧ decU (.two (lowByte v) (highByte v)) = v) ∧
  ∀ b : Byte, decU (.one b) = b.toNat

/- ### FrameParser -/

/-- Rule R110: the code of `PARSE` selects it and reaches every buffer; its result on every buffer of 15 or more
bytes, `FrameTooShort` on every shorter one, and its frame: nothing but the delivery changes. -/
def Obligations.ParseReadsEightFields : Prop :=
  (∀ p : Ports, ∃ buf, decode (.op 0b0100 p) = .ok (.parse buf)) ∧
  (∀ buf, ∃ p : Ports, decode (.op 0b0100 p) = .ok (.parse buf)) ∧
  (∀ (s : State) (buf : List Byte), buf.length < 15 →
    exec (.parse buf) s = .next { s with delivered := s.delivered ++ [.frameTooShort] }) ∧
  (∀ (s : State) (b0 b1 b2 b3 b4 b5 b6 b7 b8 b9 b10 b11 b12 b13 b14 : Byte) (surplus : List Byte),
    exec (.parse (b0 :: b1 :: b2 :: b3 :: b4 :: b5 :: b6 :: b7 :: b8 :: b9 :: b10 :: b11 :: b12 :: b13 :: b14 ::
        surplus)) s =
      .next { s with
        delivered := s.delivered ++
          [.telemetry
            { f0 := (b0.toNat + 256 * b1.toNat : Nat)
              f1 := (b2.toNat + 256 * b3.toNat : Nat)
              f2 := (b4.toNat + 256 * b5.toNat : Nat)
              f3 := (b6.toNat + 256 * b7.toNat : Nat)
              f4 := b8.toNat + 256 * (if b9.toNat < 128 then (b9.toNat : Int) else (b9.toNat : Int) - 256)
              f5 := (b10.toNat + 256 * b11.toNat : Nat)
              f6 := (b12.toNat + 256 * b13.toNat : Nat)
              f7 := b14.toNat }] })

/-- Rule R111: each field depends on its own bytes only. -/
def Obligations.ParseFieldsAreIndependent : Prop :=
  ∀ (s : State) (buf buf' : List Byte) (f f' : TelemetryFrame),
    exec (.parse buf) s = .next { s with delivered := s.delivered ++ [.telemetry f] } →
    exec (.parse buf') s = .next { s with delivered := s.delivered ++ [.telemetry f'] } →
    (buf[0]? = buf'[0]? → buf[1]? = buf'[1]? → f.f0 = f'.f0) ∧
    (buf[2]? = buf'[2]? → buf[3]? = buf'[3]? → f.f1 = f'.f1) ∧
    (buf[4]? = buf'[4]? → buf[5]? = buf'[5]? → f.f2 = f'.f2) ∧
    (buf[6]? = buf'[6]? → buf[7]? = buf'[7]? → f.f3 = f'.f3) ∧
    (buf[8]? = buf'[8]? → buf[9]? = buf'[9]? → f.f4 = f'.f4) ∧
    (buf[10]? = buf'[10]? → buf[11]? = buf'[11]? → f.f5 = f'.f5) ∧
    (buf[12]? = buf'[12]? → buf[13]? = buf'[13]? → f.f6 = f'.f6) ∧
    (buf[14]? = buf'[14]? → f.f7 = f'.f7)

/-- Rule R112: the length decides alone. Under 15 bytes the whole result is `FrameTooShort`, with no field; from 15
on there are fields, whatever the bytes. -/
def Obligations.ParseChecksLengthOnly : Prop :=
  ∀ (s : State) (buf : List Byte),
    (buf.length < 15 → exec (.parse buf) s = .next { s with delivered := s.delivered ++ [.frameTooShort] }) ∧
    (15 ≤ buf.length →
      ∃ f, exec (.parse buf) s = .next { s with delivered := s.delivered ++ [.telemetry f] })

/-- Rule R113: a longer buffer parses as its first 15 bytes. -/
def Obligations.ParseIgnoresSurplusBytes : Prop :=
  ∀ (s : State) (buf : List Byte), 15 ≤ buf.length →
    exec (.parse buf) s = exec (.parse (buf.take 15)) s ∧
    ∃ f, exec (.parse buf) s = .next { s with delivered := s.delivered ++ [.telemetry f] }

/-- Rule R114: the result is one value for the buffer, whatever the state; it is settled by the first 15 bytes and the
length; parsing twice delivers it twice; the slot is neither read nor written. -/
def Obligations.ParseIsPure : Prop :=
  ∀ buf : List Byte,
    (∃ r : Result, ∀ s : State,
      exec (.parse buf) s = .next { s with delivered := s.delivered ++ [r] } ∧
      exec (.parse buf) { s with delivered := s.delivered ++ [r] } =
        .next { s with delivered := s.delivered ++ [r] ++ [r] }) ∧
    ∀ (buf' : List Byte) (s : State), buf.take 15 = buf'.take 15 → buf.length = buf'.length →
      exec (.parse buf) s = exec (.parse buf') s

/-- Derived (41_frame_parser.md section 4, marked derived there): the ranges of the fields, and that two different
15-byte buffers give different frames. -/
def Obligations.ParseIsInjectiveWithinRanges : Prop :=
  ∀ (s : State) (buf : List Byte) (f : TelemetryFrame),
    exec (.parse buf) s = .next { s with delivered := s.delivered ++ [.telemetry f] } →
    (∀ x ∈ [f.f0, f.f1, f.f2, f.f3, f.f5, f.f6], 0 ≤ x ∧ x ≤ 65535) ∧
    -32768 ≤ f.f4 ∧ f.f4 ≤ 32767 ∧ 0 ≤ f.f7 ∧ f.f7 ≤ 255 ∧
    ∀ buf' : List Byte, buf.length = 15 → buf'.length = 15 →
      exec (.parse buf') s = .next { s with delivered := s.delivered ++ [.telemetry f] } → buf' = buf

/-- Rule R62: a telemetry frame as one 120-bit number (byte `i` in bits `[8i+7 : 8i]`). Every number parses, each field
is its bit slice, only `F4` is signed, and no bit is redundant: different numbers give different results. -/
def Obligations.TelemetryBitsAreFields : Prop :=
  ∀ (s : State) (n : Nat), n < 2 ^ 120 →
    exec (.parse ((List.range 15).map fun i => BitVec.ofNat 8 (n / 2 ^ (8 * i)))) s =
      .next { s with
        delivered := s.delivered ++
          [.telemetry
            { f0 := (n % 2 ^ 16 : Nat)
              f1 := (n / 2 ^ 16 % 2 ^ 16 : Nat)
              f2 := (n / 2 ^ 32 % 2 ^ 16 : Nat)
              f3 := (n / 2 ^ 48 % 2 ^ 16 : Nat)
              f4 := if n.testBit 79 then ((n / 2 ^ 64 % 2 ^ 16 : Nat) : Int) - 2 ^ 16
                    else (n / 2 ^ 64 % 2 ^ 16 : Nat)
              f5 := (n / 2 ^ 80 % 2 ^ 16 : Nat)
              f6 := (n / 2 ^ 96 % 2 ^ 16 : Nat)
              f7 := (n / 2 ^ 112 : Nat) }] } ∧
    ∀ m : Nat, m < 2 ^ 120 →
      exec (.parse ((List.range 15).map fun i => BitVec.ofNat 8 (m / 2 ^ (8 * i)))) s =
        exec (.parse ((List.range 15).map fun i => BitVec.ofNat 8 (n / 2 ^ (8 * i)))) s → m = n

/- ### CommandEncoder -/

/-- Rule R130: the code of `ENC` selects it and reaches every operand; the frame it returns for every in-contract
opcode and value (an omitted value is `EncOmittedValueIsZero`); nothing but the delivery changes. -/
def Obligations.EncBuildsFrame : Prop :=
  (∀ p : Ports, ∃ opcode value, decode (.op 0b0101 p) = .ok (.enc opcode value)) ∧
  (∀ opcode value, ∃ p : Ports, decode (.op 0b0101 p) = .ok (.enc opcode value)) ∧
  ∀ (s : State) (opcode : Byte) (value : Nat), opcode.toNat ≤ 0x7F → value ≤ 65535 →
    exec (.enc opcode (some value)) s =
      .next { s with
        delivered := s.delivered ++
          [.commandFrame
            { opcode := opcode
              valueLow := BitVec.ofNat 8 (value % 256)
              valueHigh := BitVec.ofNat 8 (value / 256)
              checksum := BitVec.ofNat 8 ((opcode.toNat + value % 256 + value / 256) % 256) }] }

/-- Rule R131: every frame any operation hands over has as its last byte the sum of its first three bytes, as stored,
modulo 256. -/
def Obligations.ChecksumSumsStoredBytes : Prop :=
  ∀ (i : Instr) (s t : State) (f : CommandFrame),
    exec i s = .next t → t.delivered = s.delivered ++ [.commandFrame f] →
    f.checksum.toNat = (f.opcode.toNat + f.valueLow.toNat + f.valueHigh.toNat) % 256

/-- Rule R133: low byte at index 1, high byte at index 2, and `DECU16` of bytes 1 and 2 gives the value back. -/
def Obligations.EncValueRoundTrips : Prop :=
  ∀ (s : State) (opcode : Byte) (value : Nat), opcode.toNat ≤ 0x7F → value ≤ 65535 →
    ∃ f : CommandFrame,
      exec (.enc opcode (some value)) s = .next { s with delivered := s.delivered ++ [.commandFrame f] } ∧
      f.valueLow.toNat = value % 256 ∧ f.valueHigh.toNat = value / 256 ∧
      exec (.decU16 f.valueLow f.valueHigh) s = .next { s with delivered := s.delivered ++ [.integer value] }

/-- Derived (42_command_encoder.md section 2, the spec's decision D10): an omitted value encodes as 0, for every ASCII
opcode. -/
def Obligations.EncOmittedValueIsZero : Prop :=
  ∀ (s : State) (opcode : Byte), opcode.toNat ≤ 0x7F →
    exec (.enc opcode none) s =
      .next { s with
        delivered := s.delivered ++
          [.commandFrame { opcode := opcode, valueLow := 0, valueHigh := 0, checksum := opcode }] } ∧
    exec (.enc opcode none) s = exec (.enc opcode (some 0)) s

/-- Derived (42_command_encoder.md section 2, the spec's decision D11): bits 16 and above of a value are dropped, for
every value that is not negative, and `ENC` completes; a negative value is refused. -/
def Obligations.EncMasksWideValues : Prop :=
  ∀ (s : State) (opcode : Byte) (value : Int), opcode.toNat ≤ 0x7F →
    (0 ≤ value → exec (.enc opcode (some value)) s = exec (.enc opcode (some (value % 65536))) s ∧
      ∃ f, exec (.enc opcode (some value)) s = .next { s with delivered := s.delivered ++ [.commandFrame f] }) ∧
    (value < 0 → exec (.enc opcode (some value)) s = .refused .negativeValue)

/-- Derived (42_command_encoder.md section 2, the spec's decision D12): an opcode of 0x80 or more is refused by `ENC`,
`VERIFY`, `CMD`, by `ARM` unless a command is outstanding, and as the byte 0 of a presented frame. -/
def Obligations.NonAsciiOpcodesAreRefused : Prop :=
  ∀ (s : State) (op : Byte), 0x80 ≤ op.toNat →
    (∀ value, exec (.enc op value) s = .refused .nonAsciiOpcode) ∧
    (∀ value, exec (.cmd op value) s = .refused .nonAsciiOpcode) ∧
    (∀ value resp, exec (.verify { op := op, value := value } resp) s = .refused .nonAsciiOpcode) ∧
    (s.slot.vState ≠ .awaitingResponse →
      ∀ value, exec (.arm { op := op, value := value }) s = .refused .nonAsciiOpcode) ∧
    ∀ (w : BitVec 32) (rest : List Event), w.toNat % 256 = op.toNat →
      step { s with pending := .request (.frame w) :: rest } = .refused .nonAsciiOpcode

/-- Rule R141: the frame of `ENC 'e', v`, and the example for 300. -/
def Obligations.SetReferenceFrame : Prop :=
  (∀ (s : State) (v : Half),
    exec (.enc 0x65 (some v.toNat)) s =
      .next { s with
        delivered := s.delivered ++
          [.commandFrame
            { opcode := 0x65
              valueLow := BitVec.ofNat 8 (v.toNat % 256)
              valueHigh := BitVec.ofNat 8 (v.toNat / 256)
              checksum := BitVec.ofNat 8 ((0x65 + v.toNat % 256 + v.toNat / 256) % 256) }] }) ∧
  ∀ s : State, exec (.enc 0x65 (some 300)) s =
    .next { s with
      delivered := s.delivered ++
        [.commandFrame { opcode := 0x65, valueLow := 0x2C, valueHigh := 0x01, checksum := 0x92 }] }

/-- Derived (42_command_encoder.md section 3; that executing a command-frame row hands over its frame is the model's
reading, log 8): the frames of `CMD.A`, `CMD.G`, `CMD.x` without a value, and of these, `CMD.e` and, for every ASCII
opcode, `CMD` with each value (that a frame of `A`, `G` or `x` may carry one: log 7). The codes 0x41 and 0x78 are
ASCII, the spec's general knowledge G1 (log 11). -/
def Obligations.CommandFrameRowsDeliverTheirFrame : Prop :=
  ∀ s : State,
    exec (.cmdA 0) s = .next { s with
      delivered := s.delivered ++
        [.commandFrame { opcode := 0x41, valueLow := 0, valueHigh := 0, checksum := 0x41 }] } ∧
    exec (.cmdG 0) s = .next { s with
      delivered := s.delivered ++
        [.commandFrame { opcode := 0x47, valueLow := 0, valueHigh := 0, checksum := 0x47 }] } ∧
    exec (.cmdX 0) s = .next { s with
      delivered := s.delivered ++
        [.commandFrame { opcode := 0x78, valueLow := 0, valueHigh := 0, checksum := 0x78 }] } ∧
    ∀ (i : Instr) (op : Byte) (v : Half),
      (op = 0x41 ∧ i = .cmdA v) ∨ (op = 0x47 ∧ i = .cmdG v) ∨ (op = 0x78 ∧ i = .cmdX v) ∨
        (op = 0x65 ∧ i = .cmdE v) ∨ (op.toNat ≤ 0x7F ∧ i = .cmd op v) →
      exec i s = .next { s with
        delivered := s.delivered ++
          [.commandFrame
            { opcode := op
              valueLow := BitVec.ofNat 8 (v.toNat % 256)
              valueHigh := BitVec.ofNat 8 (v.toNat / 256)
              checksum := BitVec.ofNat 8 ((op.toNat + v.toNat % 256 + v.toNat / 256) % 256) }] }

/-- Derived (30_encoding.md section 1; flattening is the spec's decision D4; the model's readings of logs 7, for a
word of `A`, `G` or `x` with a value, and 8): the frame a command-frame row hands over, flattened with byte `i` in
bits `[8i+7 : 8i]`, is the word the encoder gives that instruction. -/
def Obligations.DeliveredFrameIsTheEncodedWord : Prop :=
  ∀ (i : Instr) (w : BitVec 32) (s : State), i.wellFormed = true → encode i = .frame w →
    ∃ f : CommandFrame,
      exec i s = .next { s with delivered := s.delivered ++ [.commandFrame f] } ∧ w = frameWord f ∧
      w.toNat = f.opcode.toNat + f.valueLow.toNat * 2 ^ 8 + f.valueHigh.toNat * 2 ^ 16 + f.checksum.toNat * 2 ^ 24

/-- Derived (42_command_encoder.md section 3, marked derived there): the frame determines the opcode and the value
modulo 65536. -/
def Obligations.EncIsInjective : Prop :=
  ∀ (s t : State) (op op' : Byte) (value value' : Nat),
    exec (.enc op (some value)) s = .next t → exec (.enc op' (some value')) s = .next t →
    op = op' ∧ value % 65536 = value' % 65536

/- ### ResponseVerifier -/

/-- Rule R152: the code of `VERIFY` selects it and reaches every operand; its refusals of short replies and its result
on every other reply, for every ASCII opcode (others: `NonAsciiOpcodesAreRefused`); nothing but the delivery changes.
-/
def Obligations.VerifyFollowsTransitionRule : Prop :=
  (∀ p : Ports, ∃ cmd resp, decode (.op 0b0110 p) = .ok (.verify cmd resp)) ∧
  (∀ cmd resp, ∃ p : Ports, decode (.op 0b0110 p) = .ok (.verify cmd resp)) ∧
  ∀ (s : State) (op : Byte), op.toNat ≤ 0x7F →
    (∀ value, exec (.verify { op := op, value := value } []) s = .refused .shortResponse) ∧
    (∀ (v : Half) (resp : List Byte), resp.length < 3 →
      exec (.verify { op := op, value := some v } resp) s = .refused .shortResponse) ∧
    (∀ (r0 : Byte) (rest : List Byte),
      exec (.verify { op := op, value := none } (r0 :: rest)) s =
        .next { s with
          delivered := s.delivered ++ [.verification (if r0 = op then .matched else .opcodeMismatch)] }) ∧
    (∀ (v : Half) (r0 r1 r2 : Byte) (rest : List Byte),
      exec (.verify { op := op, value := some v } (r0 :: r1 :: r2 :: rest)) s =
        .next { s with
          delivered := s.delivered ++
            [.verification
              (if r0 ≠ op then .opcodeMismatch
               else if r1.toNat + 256 * r2.toNat = v.toNat then .matched
               else .valueMismatch v.toNat (r1.toNat + 256 * r2.toNat))] })

/-- Derived (43_response_verifier.md section 1): a value mismatch, whichever operation delivers it, carries the value
sent and the value decoded from the reply; both are 16-bit and they differ. -/
def Obligations.ValueMismatchCarriesSentAndDecoded : Prop :=
  ∀ (i : Instr) (s t : State) (expected actual : Nat),
    exec i s = .next t →
    t.delivered = s.delivered ++ [.verification (.valueMismatch expected actual)] →
    expected ≠ actual ∧ expected ≤ 65535 ∧ actual ≤ 65535 ∧
    ∃ (sent : Half) (r0 r1 r2 : Byte) (rest : List Byte),
      expected = sent.toNat ∧ actual = r1.toNat + 256 * r2.toNat ∧
      ((∃ op, i = .verify { op := op, value := some sent } (r0 :: r1 :: r2 :: rest)) ∨
       (i = .resp (r0 :: r1 :: r2 :: rest) ∧ s.slot.vHasVal = true ∧ s.slot.vVal = sent))

/-- Rule R155: `Matched` exactly when byte 0 equals the opcode and, for a command with a value, bytes 1 and 2 are that
value's bytes, low byte first. -/
def Obligations.VerifyIsExactEquality : Prop :=
  ∀ (s : State) (cmd : Command) (resp : List Byte), cmd.op.toNat ≤ 0x7F →
    (exec (.verify cmd resp) s = .next { s with delivered := s.delivered ++ [.verification .matched] } ↔
      resp[0]? = some cmd.op ∧
      ∀ v, cmd.value = some v →
        ∃ r1 r2 : Byte, resp[1]? = some r1 ∧ resp[2]? = some r2 ∧ r1.toNat + 256 * r2.toNat = v.toNat)

/-- Rule R51: bytes the block does not read cannot change anything: index 15 and up for `PARSE`; index 3 and up for
`VERIFY` and `RESP`; indices 1 and 2 as well when the command carries no value. -/
def Obligations.UnreadBytesDoNotMatter : Prop :=
  ∀ (s : State) (x y : List Byte),
    (∀ buf : List Byte, buf.length = 15 → exec (.parse (buf ++ x)) s = exec (.parse (buf ++ y)) s) ∧
    (∀ (cmd : Command) (r0 r1 r2 : Byte),
      exec (.verify cmd (r0 :: r1 :: r2 :: x)) s = exec (.verify cmd (r0 :: r1 :: r2 :: y)) s) ∧
    (∀ r0 r1 r2 : Byte, exec (.resp (r0 :: r1 :: r2 :: x)) s = exec (.resp (r0 :: r1 :: r2 :: y)) s) ∧
    (∀ (cmd : Command) (r0 : Byte), cmd.value = none →
      exec (.verify cmd (r0 :: x)) s = exec (.verify cmd (r0 :: y)) s) ∧
    (∀ r0 : Byte, s.slot.vHasVal = false → exec (.resp (r0 :: x)) s = exec (.resp (r0 :: y)) s)

/-- Derived (43_response_verifier.md section 3, the spec's decision D9): the code of `ARM` (the port its command
arrives on is the model's choice, log 6). `ARM` while a command is outstanding is refused; otherwise it records the
command and enters `AwaitingResponse`, delivering nothing. Without a value the content of `V_VAL` is unspecified: the
statement holds for whatever it is. -/
def Obligations.ArmRecordsCommand : Prop :=
  (∀ p : Ports, decode (.op 0b1000 p) = .ok (.arm p.command)) ∧
  ∀ (s : State) (cmd : Command),
    (s.slot.vState = .awaitingResponse → exec (.arm cmd) s = .refused .commandOutstanding) ∧
    (s.slot.vState ≠ .awaitingResponse → cmd.op.toNat ≤ 0x7F →
      ∃ (val : Half) (d : Nat),
        exec (.arm cmd) s =
          .next { s with
            slot := { vState := .awaitingResponse, vOp := cmd.op, vHasVal := cmd.value.isSome, vVal := val }
            draws := d } ∧
        ∀ v, cmd.value = some v → val = v ∧ d = s.draws)

/-- Derived (43_response_verifier.md section 3, the spec's decision D9): the code of `RESP` (the port its reply
arrives on is the model's choice, log 6). `RESP` with nothing outstanding is refused, a short reply is refused, and
otherwise the verdict on the recorded command is delivered and its tag kept in `V_STATE`, the other slot registers
unchanged. -/
def Obligations.RespTakesOneStep : Prop :=
  (∀ p : Ports, decode (.op 0b1001 p) = .ok (.resp p.rx)) ∧
  ∀ s : State,
    (s.slot.vState ≠ .awaitingResponse → ∀ buf, exec (.resp buf) s = .refused .nothingOutstanding) ∧
    (s.slot.vState = .awaitingResponse →
      exec (.resp []) s = .refused .shortResponse ∧
      (s.slot.vHasVal = true → ∀ buf, buf.length < 3 → exec (.resp buf) s = .refused .shortResponse) ∧
      (s.slot.vHasVal = false → ∀ (r0 : Byte) (rest : List Byte),
        exec (.resp (r0 :: rest)) s =
          .next { s with
            slot := { s.slot with vState := if r0 = s.slot.vOp then .matched else .opcodeMismatch }
            delivered := s.delivered ++
              [.verification (if r0 = s.slot.vOp then .matched else .opcodeMismatch)] }) ∧
      (s.slot.vHasVal = true → ∀ (r0 r1 r2 : Byte) (rest : List Byte),
        exec (.resp (r0 :: r1 :: r2 :: rest)) s =
          .next { s with
            slot := { s.slot with
              vState :=
                if r0 ≠ s.slot.vOp then .opcodeMismatch
                else if r1.toNat + 256 * r2.toNat = s.slot.vVal.toNat then .matched
                else .valueMismatch }
            delivered := s.delivered ++
              [.verification
                (if r0 ≠ s.slot.vOp then .opcodeMismatch
                 else if r1.toNat + 256 * r2.toNat = s.slot.vVal.toNat then .matched
                 else .valueMismatch s.slot.vVal.toNat (r1.toNat + 256 * r2.toNat))] }))

/-- Derived (43_response_verifier.md section 3, the spec's decision D9): `ABANDON` frees an outstanding command without
a result and does nothing in any other state. -/
def Obligations.AbandonFreesSlot : Prop :=
  (∀ p : Ports, decode (.op 0b1010 p) = .ok .abandon) ∧
  ∀ s : State,
    (s.slot.vState = .awaitingResponse →
      exec .abandon s = .next { s with slot := { s.slot with vState := .idle } }) ∧
    (s.slot.vState ≠ .awaitingResponse → exec .abandon s = .next s)

/-- Derived (43_response_verifier.md section 3, the table of transitions, the spec's decisions D7 and D9): a completed
operation moves `V_STATE` as the table says and in no other way. -/
def Obligations.SlotTransitions : Prop :=
  ∀ (i : Instr) (s t : State), exec i s = .next t →
    (IsPure i ∧ t.slot.vState = s.slot.vState) ∨
    (∃ cmd, i = .arm cmd ∧ s.slot.vState ≠ .awaitingResponse ∧ t.slot.vState = .awaitingResponse) ∨
    (∃ buf, i = .resp buf ∧ s.slot.vState = .awaitingResponse ∧
      t.slot.vState ∈ [.matched, .opcodeMismatch, .valueMismatch]) ∨
    (i = .abandon ∧ s.slot.vState = .awaitingResponse ∧ t.slot.vState = .idle) ∨
    (i = .abandon ∧ s.slot.vState ≠ .awaitingResponse ∧ t.slot.vState = s.slot.vState)

/-- Derived (43_response_verifier.md section 3, "the two forms agree", marked derived there): from any slot without an
outstanding command, `ARM cmd` then `RESP resp` delivers what `VERIFY cmd, resp` delivers and leaves that verdict's tag
in `V_STATE`, while `VERIFY` leaves the slot as it was. Holds for every value the slot's `V_VAL` takes when the command
has none. -/
def Obligations.ArmThenRespAgreesWithVerify : Prop :=
  ∀ (s : State) (cmd : Command) (resp : List Byte),
    s.slot.vState ≠ .awaitingResponse → cmd.op.toNat ≤ 0x7F → replyLongEnough cmd resp = true →
    ∃ (t u : State) (r : VerificationResult),
      exec (.arm cmd) s = .next t ∧ exec (.resp resp) t = .next u ∧
      exec (.verify cmd resp) s = .next { s with delivered := s.delivered ++ [.verification r] } ∧
      t.delivered = s.delivered ∧
      u.delivered = s.delivered ++ [.verification r] ∧ u.slot.vState = resultTag r

/-- Derived (43_response_verifier.md section 4, marked derived there): a reply that is the command's own frame matches,
with any bytes after it. -/
def Obligations.OwnFrameAlwaysMatches : Prop :=
  ∀ (s : State) (op : Byte) (value : Option Half) (surplus : List Byte), op.toNat ≤ 0x7F →
    ∃ f : CommandFrame,
      exec (.enc op (value.map fun v => (v.toNat : Int))) s =
        .next { s with delivered := s.delivered ++ [.commandFrame f] } ∧
      exec (.verify { op := op, value := value } ([f.opcode, f.valueLow, f.valueHigh, f.checksum] ++ surplus)) s =
        .next { s with delivered := s.delivered ++ [.verification .matched] }

/-- Derived (30_encoding.md section 6, `EXCHANGE`, and 43_response_verifier.md section 3): from any slot without an
outstanding command, the three requests of an exchange run to the end, delivering the frame that `ENC` of the command
delivers and then the verdict that `VERIFY` gives on the reply, whose tag is left in `V_STATE`, and what the host
presents after them is untouched. -/
def Obligations.ExchangeEndsInItsVerdict : Prop :=
  ∀ (s : State) (cmd : Command) (reply : List Byte) (rest : List Event),
    s.slot.vState ≠ .awaitingResponse → cmd.op.toNat ≤ 0x7F → replyLongEnough cmd reply = true →
    ∃ (t : State) (f : CommandFrame) (r : VerificationResult),
      Host.Core.run core 3 { s with pending := exchangeScript cmd reply ++ rest } = .next t ∧
      t.pending = rest ∧ t.delivered = s.delivered ++ [.commandFrame f, .verification r] ∧
      t.slot.vState = resultTag r ∧ t.slot.vOp = cmd.op ∧ f.opcode = cmd.op ∧
      exec (.enc cmd.op (cmd.value.map fun v => (v.toNat : Int))) s =
        .next { s with delivered := s.delivered ++ [.commandFrame f] } ∧
      exec (.verify cmd reply) s = .next { s with delivered := s.delivered ++ [.verification r] }

/-- Rule R165: any buffer that begins with the recorded opcode, and with the recorded value's bytes when there is a
value, is answered `Matched`, whoever sent it: a telemetry frame as well. -/
def Obligations.AnyBufferThatBeginsRightMatches : Prop :=
  ∀ (s : State) (rest : List Byte), s.slot.vState = .awaitingResponse →
    (s.slot.vHasVal = false →
      exec (.resp (s.slot.vOp :: rest)) s =
        .next { s with
          slot := { s.slot with vState := .matched }
          delivered := s.delivered ++ [.verification .matched] }) ∧
    ∀ r1 r2 : Byte, r1.toNat + 256 * r2.toNat = s.slot.vVal.toNat →
      exec (.resp (s.slot.vOp :: r1 :: r2 :: rest)) s =
        .next { s with
          slot := { s.slot with vState := .matched }
          delivered := s.delivered ++ [.verification .matched] }

/- ### Errors, contract, priority -/

/-- Derived (60_exceptions.md section 1; the code 1 is the spec's decision D8): `FrameTooShort` is delivered by `PARSE`
of fewer than 15 bytes and by nothing else, it changes nothing but the delivery, and it alone has error code 1. -/
def Obligations.FrameTooShortOnlyFromShortParse : Prop :=
  (∀ (i : Instr) (s t : State), exec i s = .next t →
    (t.delivered = s.delivered ++ [.frameTooShort] ↔ ∃ buf, i = .parse buf ∧ buf.length < 15) ∧
    (t.delivered = s.delivered ++ [.frameTooShort] → t = { s with delivered := s.delivered ++ [.frameTooShort] })) ∧
  ∀ r : Result, errorCode r = if r = .frameTooShort then 1 else 0

/-- Derived (60_exceptions.md section 1): on every reply in contract `VERIFY` and `RESP` go on to a next state,
mismatch or not; `RESP` records the mismatch tags as codes 3 and 4; a verification never has an error code. -/
def Obligations.MismatchesAreResults : Prop :=
  (∀ (s : State) (cmd : Command) (resp : List Byte), cmd.op.toNat ≤ 0x7F → replyLongEnough cmd resp = true →
    ∃ r, exec (.verify cmd resp) s = .next { s with delivered := s.delivered ++ [.verification r] }) ∧
  (∀ (s : State) (resp : List Byte), s.slot.vState = .awaitingResponse →
    replyLongEnough s.slot.command resp = true →
    ∃ (r : VerificationResult) (t : State),
      exec (.resp resp) s = .next t ∧ t.delivered = s.delivered ++ [.verification r] ∧
      (r = .opcodeMismatch ↔ statusOutput t = 3) ∧
      ((∃ expected actual, r = .valueMismatch expected actual) ↔ statusOutput t = 4)) ∧
  ∀ r, errorCode (.verification r) = 0

/-- Derived (60_exceptions.md section 1, the list of contract violations, the spec's decision D14): an operation answers
a next state exactly when none of its preconditions is broken, and is refused otherwise. -/
def Obligations.OperationsCompleteExactlyInContract : Prop :=
  ∀ (i : Instr) (s : State),
    (InContract i s → ∃ t, exec i s = .next t) ∧
    (¬ InContract i s → ∃ r, exec i s = .refused r ∧
      r ∈ [.shortResponse, .commandOutstanding, .nothingOutstanding, .nonAsciiOpcode, .negativeValue])

/-- Derived (20_memory.md section 1, marked derived there): a buffer read is defined exactly inside the buffer, and no
operation and no step reads outside one. -/
def Obligations.NoReadOutsideABuffer : Prop :=
  (∀ (buf : List Byte) (off : Nat),
    ((∃ b, memRead1 buf off = .next b) ↔ off + 1 ≤ buf.length) ∧
    ((∃ b, memRead2 buf off = .next b) ↔ off + 2 ≤ buf.length)) ∧
  (∀ (i : Instr) (s : State) (f : Fault), exec i s ≠ .fault f) ∧
  ∀ (s : State) (f : Fault), step s ≠ .fault f

/- ### Reset, steps, encoding -/

/-- Derived (70_reset_and_hazards.md section 1, the spec's decision D13): a reset presented by the host makes `V_STATE`
`Idle` in every state, delivers nothing and discards an outstanding command; the other three registers are unspecified. -/
def Obligations.ResetEventIdles : Prop :=
  ∀ (s : State) (rest : List Event), s.pending = .reset :: rest →
    ∃ (op : Byte) (hasVal : Bool) (val : Half) (d : Nat),
      step s = .next
        { slot := { vState := .idle, vOp := op, vHasVal := hasVal, vVal := val }
          draws := d, pending := rest, delivered := s.delivered }

/-- Derived (10_state.md section 4, the spec's decision D13): the machine after reset is `Idle`, status code 0. That
nothing is presented or delivered then is the model's choice (logs 4 and 5). -/
def Obligations.ResetStateIsIdle : Prop :=
  State.reset.slot.vState = .idle ∧ statusOutput State.reset = 0 ∧ State.reset.pending = [] ∧
  State.reset.delivered = []

/-- Derived (70_reset_and_hazards.md section 1, marked derived there): in every `Idle` state, so after every reset, a
pure operation with operands in contract and `ARM` complete, `ABANDON` does nothing, and `RESP` is refused. -/
def Obligations.FirstOperationAfterReset : Prop :=
  ∀ s : State, s.slot.vState = .idle →
    (∀ i : Instr, i.wellFormed = true → (∀ buf, i ≠ .resp buf) → ∃ t, exec i s = .next t) ∧
    exec .abandon s = .next s ∧
    ∀ buf, exec (.resp buf) s = .refused .nothingOutstanding

/-- Derived (30_encoding.md sections 1, 3 and 5; the layout of operands is the model's, log 6, and so is that a
frame of `A`, `G` or `x` may carry a value, log 7): decoding the encoding of
a well-formed instruction gives it back, every operand at every value. -/
def Obligations.DecodeOfEncode : Prop :=
  ∀ i : Instr, i.wellFormed = true → decode (encode i) = .ok i

/-- Derived (30_encoding.md sections 1, 3 and 4; that a word of `A`, `G` or `x` with a value other than 0 has a
meaning is the model's choice, log 7): every well-formed command word with an ASCII opcode decodes to a well-formed
instruction whose encoding is that word, so each such word has one meaning and loses no bit. -/
def Obligations.FrameWordsRoundTrip : Prop :=
  ∀ w : BitVec 32,
    (wordChecksum w).toNat =
      ((wordOpcode w).toNat + (wordValue w).toNat % 256 + (wordValue w).toNat / 256) % 256 →
    (wordOpcode w).toNat ≤ 0x7F →
    ∃ i : Instr, decode (.frame w) = .ok i ∧ i.wellFormed = true ∧ encode i = .frame w

/-- Derived (30_encoding.md sections 1 and 5, 95_test_vectors.md section 2.3; the codes 0x41 and 0x78 are ASCII, log 11;
the zero operands of an `OPSEL` table word are the model's choice, log 6): five command words, one of
them again as a table word, and two `OPSEL` codes, written out from the tables, decode to the instructions they stand
for, and a reserved `OPSEL` code to none. -/
def Obligations.TableWordsDecode : Prop :=
  decode (.frame 0x41000041) = .ok (.cmdA 0) ∧ decode (.frame 0x47000047) = .ok (.cmdG 0) ∧
  decode (.frame 0x78000078) = .ok (.cmdX 0) ∧ decode (.frame 0x92012C65) = .ok (.cmdE 300) ∧
  decode (.frame 0x7DFFFF7F) = .ok (.cmd 0x7F 0xFFFF) ∧
  decodeTableWord 8 0b0001 = some (.decU16 0 0) ∧ decodeTableWord 8 0b1010 = some .abandon ∧
  decodeTableWord 8 0b0111 = none ∧ decodeTableWord 32 0x92012C65 = some (.cmdE 300)

/-- Derived (30_encoding.md section 5, the spec's decision D3): an `OPSEL` code selects an operation exactly when it is
not reserved, and a step on a reserved one is refused. -/
def Obligations.ReservedOpselsAreRefused : Prop :=
  ∀ (opsel : BitVec 4) (p : Ports),
    ((∃ i, decode (.op opsel p) = .ok i) ↔ opsel.toNat ≠ 0b0111 ∧ opsel.toNat < 0b1011) ∧
    ∀ (s : State) (rest : List Event), opsel.toNat = 0b0111 ∨ 0b1011 ≤ opsel.toNat →
      step { s with pending := .request (.op opsel p) :: rest } = .refused .reservedOpsel

/-- Derived (00_scope.md section 5, 10_state.md section 1): a step takes the first request presented off the list and is
`exec` of the instruction it decodes to; a rejected request is refused by the same name. -/
def Obligations.StepRunsDecodedInstruction : Prop :=
  ∀ (s : State) (r : Request) (rest : List Event), s.pending = .request r :: rest →
    (∀ i, decode r = .ok i → step s = exec i { s with pending := rest }) ∧
    (∀ e, decode r = .error e → step s = .refused (refusalOf e))

/-- Derived (00_scope.md section 5, 70_reset_and_hazards.md section 1): with nothing presented the block waits; nothing
changes. -/
def Obligations.StepWaitsWithNothingPresented : Prop :=
  ∀ s : State, s.pending = [] → step s = .next s

/- ### Whole-machine rules -/

/-- Derived (10_state.md section 2): every step keeps the invariant of the slot, in every state that has it: outside
`Idle` the recorded opcode is ASCII, and `ValueMismatch` is held only for a command with a value. -/
def Obligations.StepKeepsSlotInvariant : Prop :=
  ∀ s t : State, SlotInv s.slot → step s = .next t → SlotInv t.slot

/-- Derived (10_state.md sections 2 and 4): the state after reset has the invariant of the slot. -/
def Obligations.ResetHasSlotInvariant : Prop :=
  SlotInv State.reset.slot

/-- Derived (10_state.md sections 1 and 3: no register keeps a result, no hidden state): what has been delivered is never
read. Two states that differ in it alone step alike, with the same new results. -/
def Obligations.DeliveredResultsAreNotRead : Prop :=
  ∀ (s : State) (other : List Result),
    (∀ t, step s = .next t → ∃ new : List Result,
      t.delivered = s.delivered ++ new ∧
      step { s with delivered := other } = .next { t with delivered := other ++ new }) ∧
    (∀ r, step s = .refused r → step { s with delivered := other } = .refused r)

/-- Derived (10_state.md section 4, "cannot be observed before they are written", the spec's decision D13, and section 2
for `V_VAL` without a value): two states that agree in all but the unspecified registers, in particular with any contents
of `V_OP`, `V_HASVAL` and `V_VAL` unless a command is outstanding, and with any `V_VAL` when `V_HASVAL` is 0, answer every
operation and every step alike: both go on, to states that agree so again, with the same results, or both are refused for
the same reason. The relation is kept, so it holds along runs; equal counters of free values (log 2) stay equal. -/
def Obligations.UnspecifiedRegistersAreNotObservable : Prop :=
  ∀ s t : State, Indistinguishable s t →
    (∀ s', step s = .next s' →
      ∃ t', step t = .next t' ∧ Indistinguishable s' t' ∧ (t.draws = s.draws → t'.draws = s'.draws)) ∧
    (∀ r, step s = .refused r → step t = .refused r) ∧
    ∀ i : Instr,
      (∀ s', exec i s = .next s' →
        ∃ t', exec i t = .next t' ∧ Indistinguishable s' t' ∧ (t.draws = s.draws → t'.draws = s'.draws)) ∧
      (∀ r, exec i s = .refused r → exec i t = .refused r)

/-- Derived (10_state.md section 1 for `DECU8`, `DECU16`, `DECS8`, `DECS16`, `PARSE`, `ENC` and `VERIFY`; the
command-frame rows are the model's reading, log 8; the refusals are the spec's decision D14): the outcome is settled
by the operands alone: one result delivered in every state, no register read or written; or, outside the contract, the
same refusal in every state. -/
def Obligations.PureOperationsDependOnOperandsAlone : Prop :=
  ∀ i : Instr, IsPure i →
    (∃ r : Result, ∀ s : State, exec i s = .next { s with delivered := s.delivered ++ [r] }) ∨
    (∃ r : Refusal, ∀ s : State, exec i s = .refused r)

/-- Derived (20_memory.md section 6): two pure operations commute: in either order both complete, the block is left as
it was, and each delivers the same result. -/
def Obligations.PureOperationsCommute : Prop :=
  ∀ (i j : Instr) (s t u : State), IsPure i → IsPure j → exec i s = .next t → exec j t = .next u →
    ∃ (ri rj : Result) (t' : State),
      u = { s with delivered := s.delivered ++ [ri, rj] } ∧
      exec j s = .next t' ∧ exec i t' = .next { s with delivered := s.delivered ++ [rj, ri] }

/-- Derived (10_state.md section 2, access summary, marked derived there): the frame of every completed operation. Pure
operations leave the slot; `RESP` and `ABANDON` write `V_STATE` alone; what the host presents is left; free values are
used by `ARM` of a command without a value alone; `ARM` and `ABANDON` deliver nothing, every other operation one
result. -/
def Obligations.CompletedOperationsChangeNothingElse : Prop :=
  ∀ (i : Instr) (s t : State), exec i s = .next t →
    t.pending = s.pending ∧
    (IsPure i → t.slot = s.slot) ∧
    ((∀ cmd, i ≠ .arm cmd) →
      t.slot.vOp = s.slot.vOp ∧ t.slot.vHasVal = s.slot.vHasVal ∧ t.slot.vVal = s.slot.vVal) ∧
    ((∀ op, i ≠ .arm { op := op, value := none }) → t.draws = s.draws) ∧
    (t.delivered = s.delivered ↔ i = .abandon ∨ ∃ cmd, i = .arm cmd) ∧
    ((i ≠ .abandon ∧ ∀ cmd, i ≠ .arm cmd) → ∃ r, t.delivered = s.delivered ++ [r])

/-- Derived (70_reset_and_hazards.md section 3): a slot in `AwaitingResponse` leaves it only when the host presents a
reset, a `RESP` or an `ABANDON`; nothing in the block does it by itself. -/
def Obligations.AwaitingIsLeftByTheHostOnly : Prop :=
  ∀ s t : State, step s = .next t → s.slot.vState = .awaitingResponse → t.slot.vState ≠ .awaitingResponse →
    (∃ rest, s.pending = .reset :: rest) ∨
    ∃ r rest, s.pending = .request r :: rest ∧ (decode r = .ok .abandon ∨ ∃ buf, decode r = .ok (.resp buf))

/-- Derived (10_state.md section 1, 20_memory.md section 6): along every run, the host adding requests as it likes, the
invariant of the slot is kept and what was delivered stays delivered, in order. -/
def Obligations.RunsKeepInvariantAndDeliveries : Prop :=
  ∀ s t : State, Reaches s t → SlotInv s.slot →
    SlotInv t.slot ∧ ∃ new : List Result, t.delivered = s.delivered ++ new

/-- Derived (30_encoding.md section 6, `ISET`, and 43_response_verifier.md section 4): of a reply of 3 or more bytes,
`ISET` presents `DECU16` of bytes 1 and 2, whose step delivers their little-endian value and changes nothing else of
the block. That a shorter reply, to which the spec gives no consequence, has no script is the model's choice (log 12).
-/
def Obligations.IsetDecodesBytesOneAndTwo : Prop :=
  (∀ (s : State) (r0 b1 b2 : Byte) (surplus : List Byte) (rest : List Event),
    isetScript (r0 :: b1 :: b2 :: surplus) = some [.request (encode (.decU16 b1 b2))] ∧
    step { s with pending := [.request (encode (.decU16 b1 b2))] ++ rest } =
      .next { s with
        pending := rest, delivered := s.delivered ++ [.integer (b1.toNat + 256 * b2.toNat : Nat)] }) ∧
  ∀ buf : List Byte, buf.length < 3 → isetScript buf = none
end

