-- ==== Sys2Proof/Laws/State.lean ====
section
/-! SUPPORT. One lemma per field per update of State, and the sequencing operations on each answer. -/

namespace Sys2Proof.Machine

/- Delivery of a result. -/
@[simp] theorem State.deliver_slot (s : State) (r : Result) : (s.deliver r).slot = s.slot := rfl
@[simp] theorem State.deliver_draws (s : State) (r : Result) : (s.deliver r).draws = s.draws := rfl
@[simp] theorem State.deliver_pending (s : State) (r : Result) : (s.deliver r).pending = s.pending := rfl
@[simp] theorem State.deliver_delivered (s : State) (r : Result) : (s.deliver r).delivered = s.delivered ++ [r] := rfl

/- A write of `V_STATE`. -/
@[simp] theorem State.setVState_vState (s : State) (v : VState) : (s.setVState v).slot.vState = v := rfl
@[simp] theorem State.setVState_vOp (s : State) (v : VState) : (s.setVState v).slot.vOp = s.slot.vOp := rfl
@[simp] theorem State.setVState_vHasVal (s : State) (v : VState) : (s.setVState v).slot.vHasVal = s.slot.vHasVal := rfl
@[simp] theorem State.setVState_vVal (s : State) (v : VState) : (s.setVState v).slot.vVal = s.slot.vVal := rfl
@[simp] theorem State.setVState_draws (s : State) (v : VState) : (s.setVState v).draws = s.draws := rfl
@[simp] theorem State.setVState_pending (s : State) (v : VState) : (s.setVState v).pending = s.pending := rfl
@[simp] theorem State.setVState_delivered (s : State) (v : VState) : (s.setVState v).delivered = s.delivered := rfl

/- Recording a command. -/
@[simp] theorem State.recordCommand_vState (s : State) (c : Command) :
    (s.recordCommand c).slot.vState = .awaitingResponse := by
  obtain ⟨op, _ | v⟩ := c <;> rfl
@[simp] theorem State.recordCommand_vOp (s : State) (c : Command) : (s.recordCommand c).slot.vOp = c.op := by
  obtain ⟨op, _ | v⟩ := c <;> rfl
@[simp] theorem State.recordCommand_vHasVal (s : State) (c : Command) :
    (s.recordCommand c).slot.vHasVal = c.value.isSome := by
  obtain ⟨op, _ | v⟩ := c <;> rfl
@[simp] theorem State.recordCommand_pending (s : State) (c : Command) :
    (s.recordCommand c).pending = s.pending := by
  obtain ⟨op, _ | v⟩ := c <;> rfl
@[simp] theorem State.recordCommand_delivered (s : State) (c : Command) :
    (s.recordCommand c).delivered = s.delivered := by
  obtain ⟨op, _ | v⟩ := c <;> rfl
theorem State.recordCommand_vVal {s : State} {c : Command} {v : Half} (h : c.value = some v) :
    (s.recordCommand c).slot.vVal = v := by
  simp [State.recordCommand, h]
theorem State.recordCommand_draws {s : State} {c : Command} {v : Half} (h : c.value = some v) :
    (s.recordCommand c).draws = s.draws := by
  simp [State.recordCommand, h]

/- A reset applied by the host. -/
@[simp] theorem State.applyReset_vState (s : State) : s.applyReset.slot.vState = .idle := rfl
@[simp] theorem State.applyReset_pending (s : State) : s.applyReset.pending = s.pending := rfl
@[simp] theorem State.applyReset_delivered (s : State) : s.applyReset.delivered = s.delivered := rfl

/- Presenting a request. -/
@[simp] theorem State.present_slot (s : State) (r : Request) : (s.present r).slot = s.slot := rfl
@[simp] theorem State.present_draws (s : State) (r : Request) : (s.present r).draws = s.draws := rfl
@[simp] theorem State.present_delivered (s : State) (r : Request) : (s.present r).delivered = s.delivered := rfl
@[simp] theorem State.present_pending (s : State) (r : Request) :
    (s.present r).pending = .request r :: s.pending := rfl

/- Sequencing. -/
@[simp] theorem andThen_next {α β : Type} (x : α) (f : α → Answer β) : andThen (.next x) f = f x := rfl
@[simp] theorem andThen_fault {α β : Type} (e : Fault) (f : α → Answer β) : andThen (.fault e) f = .fault e := rfl
@[simp] theorem andThen_refused {α β : Type} (r : Refusal) (f : α → Answer β) :
    andThen (.refused r) f = .refused r := rfl
@[simp] theorem require_true {α : Type} (r : Refusal) (a : Answer α) : require true r a = a := rfl
@[simp] theorem require_false {α : Type} (r : Refusal) (a : Answer α) : require false r a = .refused r := rfl

/-- A sequence ends in a value only through a value of its first part. -/
theorem andThen_eq_next {α β : Type} {a : Answer α} {f : α → Answer β} {y : β} :
    andThen a f = .next y ↔ ∃ x, a = .next x ∧ f x = .next y := by
  cases a <;> simp

/-- A guarded computation ends in a value only if its precondition holds. -/
theorem require_eq_next {α : Type} {c : Bool} {r : Refusal} {a : Answer α} {x : α} :
    require c r a = .next x ↔ c = true ∧ a = .next x := by
  cases c <;> simp

/-- A guarded computation faults only if the computation does. -/
theorem require_eq_fault {α : Type} {c : Bool} {r : Refusal} {a : Answer α} {f : Fault} :
    require c r a = .fault f ↔ c = true ∧ a = .fault f := by
  cases c <;> simp

/- What the host presents. -/
theorem takeEvent_waiting {α : Type} {s : State} (h : s.pending = []) (w : α) (f : State → α)
    (g : Instr → State → α) (k : Refusal → α) : takeEvent s w f g k = w := by
  simp [takeEvent, h]

theorem takeEvent_reset {α : Type} {s : State} {rest : List Event} (h : s.pending = .reset :: rest) (w : α)
    (f : State → α) (g : Instr → State → α) (k : Refusal → α) :
    takeEvent s w f g k = f { s with pending := rest } := by
  simp [takeEvent, h]

theorem takeEvent_instr {α : Type} {s : State} {r : Request} {rest : List Event} {i : Instr}
    (h : s.pending = .request r :: rest) (hd : decode r = .ok i) (w : α) (f : State → α) (g : Instr → State → α)
    (k : Refusal → α) : takeEvent s w f g k = g i { s with pending := rest } := by
  simp [takeEvent, h, hd]

theorem takeEvent_reject {α : Type} {s : State} {r : Request} {rest : List Event} {e : Rejection}
    (h : s.pending = .request r :: rest) (hd : decode r = .error e) (w : α) (f : State → α) (g : Instr → State → α)
    (k : Refusal → α) : takeEvent s w f g k = k (refusalOf e) := by
  simp [takeEvent, h, hd]

end Sys2Proof.Machine
end

