-- ==== Sys2Proof/Laws/Operands.lean ====
section
/-! SUPPORT. What the buffer reads and the operand forms do, each said once. -/

namespace Sys2Proof.Machine

/- Reads at the fixed offsets the operations use. -/
theorem memRead1_of_getElem? {buf : List Byte} {off : Nat} {b : Byte} (h : buf[off]? = some b) :
    memRead1 buf off = .next (.one b) := by
  simp [memRead1, h]

theorem memRead2_of_getElem? {buf : List Byte} {off : Nat} {b0 b1 : Byte} (h0 : buf[off]? = some b0)
    (h1 : buf[off + 1]? = some b1) : memRead2 buf off = .next (.two b0 b1) := by
  simp [memRead2, h0, h1]

theorem memRead1_next {buf : List Byte} {off : Nat} {x : Slice} (h : memRead1 buf off = .next x) :
    ∃ b, buf[off]? = some b ∧ x = .one b := by
  unfold memRead1 at h
  split at h <;> simp_all

theorem memRead2_next {buf : List Byte} {off : Nat} {x : Slice} (h : memRead2 buf off = .next x) :
    ∃ b0 b1, buf[off]? = some b0 ∧ buf[off + 1]? = some b1 ∧ x = .two b0 b1 := by
  unfold memRead2 at h
  split at h <;> simp_all

/- Decoding a slice. -/
@[simp] theorem decU_one (b : Byte) : decU (.one b) = b.toNat := rfl

theorem decU_two (b0 b1 : Byte) : decU (.two b0 b1) = b0.toNat + 256 * b1.toNat := by
  simp [decU, Nat.shiftLeft_eq, Nat.mul_comm]

theorem decU_two_lt (b0 b1 : Byte) : decU (.two b0 b1) < 65536 := by
  rw [decU_two]
  omega

theorem decS_one (b : Byte) : decS (.one b) = if b.toNat < 128 then (b.toNat : Int) else (b.toNat : Int) - 256 := by
  revert b
  decide +revert

/-- A number below `2 ^ (k + 1)` has bit `k` set exactly when it is at least `2 ^ k`. -/
theorem testBit_top {u k : Nat} (h : u < 2 ^ (k + 1)) : u.testBit k = decide (2 ^ k ≤ u) := by
  by_cases hk : 2 ^ k ≤ u
  · have h2 : u - 2 ^ k < 2 ^ k := by omega
    have h3 : u / 2 ^ k = 1 := Nat.div_eq_of_lt_le (by omega) (by omega)
    simp [Nat.testBit_eq_decide_div_mod_eq, h3, hk]
  · simp [hk, Nat.testBit_lt_two_pow (Nat.lt_of_not_le hk)]

/-- The two's-complement reading of a slice, by comparison with half its range. -/
theorem decS_eq (b : Slice) :
    decS b = if decU b < 2 ^ (sliceWidth b - 1) then (decU b : Int) else (decU b : Int) - 2 ^ sliceWidth b := by
  have hlt : decU b < 2 ^ sliceWidth b := by
    cases b with
    | one b0 => simpa [sliceWidth] using b0.isLt
    | two b0 b1 => simpa [sliceWidth] using decU_two_lt b0 b1
  have hw : sliceWidth b - 1 + 1 = sliceWidth b := by cases b <;> rfl
  simp only [decS, testBit_top (hw ▸ hlt), Nat.and_two_pow_sub_one_of_lt_two_pow hlt, decide_eq_true_eq]
  split <;> split <;> (first | omega | (push_cast; omega))

theorem decS_two (b0 b1 : Byte) :
    decS (.two b0 b1) =
      b0.toNat + 256 * (if b1.toNat < 128 then (b1.toNat : Int) else (b1.toNat : Int) - 256) := by
  have h0 := b0.isLt
  rw [decS_eq, decU_two, show sliceWidth (.two b0 b1) = 16 from rfl]
  by_cases h : b1.toNat < 128
  · rw [if_pos (by omega), if_pos h]
    push_cast
    rfl
  · rw [if_neg (by omega), if_neg h]
    push_cast
    omega

/- Splitting a value. -/
@[simp] theorem lowByte_toNat (v : Nat) : (lowByte v).toNat = v % 256 := by
  rw [lowByte, show (0xFF : Nat) = 2 ^ 8 - 1 from rfl, Nat.and_two_pow_sub_one_eq_mod]
  simp

@[simp] theorem highByte_toNat (v : Nat) : (highByte v).toNat = v / 256 % 256 := by
  rw [highByte, show (0xFF : Nat) = 2 ^ 8 - 1 from rfl, Nat.and_two_pow_sub_one_eq_mod]
  simp [Nat.shiftRight_eq_div_pow]

theorem decU_split {v : Nat} (h : v < 65536) : decU (.two (lowByte v) (highByte v)) = v := by
  rw [decU_two, lowByte_toNat, highByte_toNat]
  omega

/- The preconditions as propositions. -/
theorem isAscii_iff {op : Byte} : isAscii op = true ↔ op.toNat ≤ 0x7F := by
  exact decide_eq_true_iff

theorem replyLongEnough_iff {cmd : Command} {resp : List Byte} :
    replyLongEnough cmd resp = true ↔ (if cmd.value.isSome then 3 else 1) ≤ resp.length := by
  exact decide_eq_true_iff

end Sys2Proof.Machine
end

