-- ==== Sys2Proof/Laws/Units.lean ====
section
/-! SUPPORT. One spec lemma per unit's shared computation: the parser's reads, the encoder's frame, the transition
rule. -/

namespace Sys2Proof.Machine

/- ### FrameParser -/

theorem fieldU16_of {buf : List Byte} {off : Nat} {b0 b1 : Byte} (h0 : buf[off]? = some b0)
    (h1 : buf[off + 1]? = some b1) : fieldU16 buf off = .next ((b0.toNat + 256 * b1.toNat : Nat) : Int) := by
  simp [fieldU16, memRead2_of_getElem? h0 h1, decU_two]

theorem fieldS16_of {buf : List Byte} {off : Nat} {b0 b1 : Byte} (h0 : buf[off]? = some b0)
    (h1 : buf[off + 1]? = some b1) : fieldS16 buf off = .next (decS (.two b0 b1)) := by
  simp [fieldS16, memRead2_of_getElem? h0 h1]

theorem fieldU8_of {buf : List Byte} {off : Nat} {b0 : Byte} (h0 : buf[off]? = some b0) :
    fieldU8 buf off = .next (b0.toNat : Int) := by
  simp [fieldU8, memRead1_of_getElem? h0]

/-- A list of at least 15 bytes written out. -/
theorem exists_fifteen {buf : List Byte} (h : 15 ≤ buf.length) :
    ∃ b0 b1 b2 b3 b4 b5 b6 b7 b8 b9 b10 b11 b12 b13 b14 surplus,
      buf = b0 :: b1 :: b2 :: b3 :: b4 :: b5 :: b6 :: b7 :: b8 :: b9 :: b10 :: b11 :: b12 :: b13 :: b14 :: surplus := by
  match buf, h with
  | b0 :: b1 :: b2 :: b3 :: b4 :: b5 :: b6 :: b7 :: b8 :: b9 :: b10 :: b11 :: b12 :: b13 :: b14 :: surplus, _ =>
    exact ⟨b0, b1, b2, b3, b4, b5, b6, b7, b8, b9, b10, b11, b12, b13, b14, surplus, rfl⟩

/-- The parser's reads on 15 or more bytes. -/
theorem readTelemetry_cons (b0 b1 b2 b3 b4 b5 b6 b7 b8 b9 b10 b11 b12 b13 b14 : Byte) (surplus : List Byte) :
    readTelemetry (b0 :: b1 :: b2 :: b3 :: b4 :: b5 :: b6 :: b7 :: b8 :: b9 :: b10 :: b11 :: b12 :: b13 :: b14 ::
        surplus) =
      .next
        { f0 := (b0.toNat + 256 * b1.toNat : Nat)
          f1 := (b2.toNat + 256 * b3.toNat : Nat)
          f2 := (b4.toNat + 256 * b5.toNat : Nat)
          f3 := (b6.toNat + 256 * b7.toNat : Nat)
          f4 := decS (.two b8 b9)
          f5 := (b10.toNat + 256 * b11.toNat : Nat)
          f6 := (b12.toNat + 256 * b13.toNat : Nat)
          f7 := b14.toNat } := by
  simp only [readTelemetry, fieldU16, fieldS16, fieldU8, memRead1, memRead2, decU_two, decU_one,
    List.getElem?_cons_succ, List.getElem?_cons_zero, andThen_next, Nat.reduceAdd]

theorem execParse_short {buf : List Byte} (h : buf.length < 15) (s : State) :
    execParse buf s = .next (s.deliver .frameTooShort) :=
  if_pos h

theorem execParse_long {buf : List Byte} (h : 15 ≤ buf.length) (s : State) :
    execParse buf s = andThen (readTelemetry buf) fun f => .next (s.deliver (.telemetry f)) :=
  if_neg (Nat.not_lt.mpr h)

/- ### CommandEncoder -/

/-- The frame of an opcode and a value. -/
theorem encodeFrame_eq (op : Byte) (v : Nat) :
    encodeFrame op v =
      { opcode := op, valueLow := lowByte v, valueHigh := highByte v
        checksum := BitVec.ofNat 8 ((op.toNat + (lowByte v).toNat + (highByte v).toNat) % 256) } := rfl

theorem encodeFrame_checksum (op : Byte) (v : Nat) :
    (encodeFrame op v).checksum.toNat =
      ((encodeFrame op v).opcode.toNat + (encodeFrame op v).valueLow.toNat + (encodeFrame op v).valueHigh.toNat) % 256 := by
  simp [encodeFrame_eq]

/-- The frame depends on the value modulo 65536 only. -/
theorem encodeFrame_mod (op : Byte) (v : Nat) : encodeFrame op v = encodeFrame op (v % 65536) := by
  have hl : lowByte v = lowByte (v % 65536) := by
    apply BitVec.eq_of_toNat_eq
    simp only [lowByte_toNat]
    omega
  have hh : highByte v = highByte (v % 65536) := by
    apply BitVec.eq_of_toNat_eq
    simp only [highByte_toNat]
    omega
  rw [encodeFrame_eq, encodeFrame_eq, hl, hh]

/-- `ENC` completes exactly in contract, and then hands over the frame. -/
theorem execEnc_eq_next {op : Byte} {v : Option Int} {s t : State} :
    execEnc op v s = .next t ↔
      isAscii op = true ∧ nonNegative v = true ∧ t = s.deliver (.commandFrame (encodeFrame op (valueOperand v))) := by
  simp only [execEnc, require_eq_next, deliverFrame, Host.Outcome.next.injEq]
  exact and_congr_right fun _ => and_congr_right fun _ => eq_comm

/- ### ResponseVerifier -/

theorem verifyReply_short {cmd : Command} {resp : List Byte} (h : replyLongEnough cmd resp = false) :
    verifyReply cmd resp = .refused .shortResponse := by
  simp [verifyReply, h]

/-- The transition rule on a command without a value. -/
theorem verifyReply_none (op r0 : Byte) (rest : List Byte) :
    verifyReply { op := op, value := none } (r0 :: rest) =
      .next (if r0 = op then .matched else .opcodeMismatch) := by
  have h : replyLongEnough { op := op, value := none } (r0 :: rest) = true := by
    simp [replyLongEnough_iff]
  rw [verifyReply, h, require_true]
  by_cases hr : r0 = op <;> simp [memRead1, hr, BitVec.toNat_inj]

/-- The transition rule on a command with a value. -/
theorem verifyReply_some (op r0 r1 r2 : Byte) (v : Half) (rest : List Byte) :
    verifyReply { op := op, value := some v } (r0 :: r1 :: r2 :: rest) =
      .next (if r0 ≠ op then .opcodeMismatch
        else if r1.toNat + 256 * r2.toNat = v.toNat then .matched
        else .valueMismatch v.toNat (r1.toNat + 256 * r2.toNat)) := by
  have h : replyLongEnough { op := op, value := some v } (r0 :: r1 :: r2 :: rest) = true := by
    simp [replyLongEnough_iff]
  rw [verifyReply, h, require_true]
  by_cases hr : r0 = op
  · by_cases hv : r1.toNat + 256 * r2.toNat = v.toNat <;>
      simp [checkValue, memRead1, memRead2, hr, hv, decU_two]
  · simp [memRead1, hr, BitVec.toNat_inj]

/-- A reply that is long enough, written out by whether the command has a value. -/
theorem longReply_cases {cmd : Command} {resp : List Byte} (h : replyLongEnough cmd resp = true) :
    (∃ op r0 rest, cmd = { op := op, value := none } ∧ resp = r0 :: rest) ∨
    (∃ op v r0 r1 r2 rest, cmd = { op := op, value := some v } ∧ resp = r0 :: r1 :: r2 :: rest) := by
  rw [replyLongEnough_iff] at h
  obtain ⟨op, _ | v⟩ := cmd
  · match resp, h with
    | r0 :: rest, _ => exact .inl ⟨op, r0, rest, rfl, rfl⟩
  · match resp, h with
    | r0 :: r1 :: r2 :: rest, _ => exact .inr ⟨op, v, r0, r1, r2, rest, rfl, rfl⟩

/-- The transition rule answers a verdict on every reply that is long enough. -/
theorem verifyReply_long {cmd : Command} {resp : List Byte} (h : replyLongEnough cmd resp = true) :
    ∃ r, verifyReply cmd resp = .next r := by
  obtain ⟨op, r0, rest, rfl, rfl⟩ | ⟨op, v, r0, r1, r2, rest, rfl, rfl⟩ := longReply_cases h
  · exact ⟨_, verifyReply_none ..⟩
  · exact ⟨_, verifyReply_some ..⟩

/-- A verdict comes from a long enough reply only. -/
theorem verifyReply_eq_next {cmd : Command} {resp : List Byte} {r : VerificationResult}
    (h : verifyReply cmd resp = .next r) : replyLongEnough cmd resp = true := by
  by_contra hs
  simp [verifyReply_short (Bool.not_eq_true _ ▸ hs)] at h

/-- A value mismatch comes from a command with a value whose opcode the reply echoes. -/
theorem verifyReply_mismatch {cmd : Command} {resp : List Byte} {e a : Nat}
    (h : verifyReply cmd resp = .next (.valueMismatch e a)) :
    ∃ op v r1 r2 rest, cmd = { op := op, value := some v } ∧ resp = op :: r1 :: r2 :: rest ∧ e = v.toNat ∧
      a = r1.toNat + 256 * r2.toNat ∧ e ≠ a := by
  obtain ⟨op, r0, rest, rfl, rfl⟩ | ⟨op, v, r0, r1, r2, rest, rfl, rfl⟩ := longReply_cases (verifyReply_eq_next h)
  · rw [verifyReply_none] at h
    split at h <;> simp at h
  · rw [verifyReply_some] at h
    by_cases h0 : r0 = op
    · by_cases hv : r1.toNat + 256 * r2.toNat = v.toNat
      · simp [h0, hv] at h
      · simp only [h0, ne_eq, not_true_eq_false, if_false, hv, Host.Outcome.next.injEq,
          VerificationResult.valueMismatch.injEq] at h
        refine ⟨op, v, r1, r2, rest, rfl, by rw [h0], h.1.symm, h.2.symm, fun he => hv ?_⟩
        omega
    · simp [h0] at h

end Sys2Proof.Machine
end

