-- ==== Sys2Proof/Laws/Exec.lean ====
section
/-! SUPPORT. What an operation can do, said once: the four ways `exec` answers a next state. -/

namespace Sys2Proof.Machine

/-- The four ways an operation completes. -/
inductive ExecNext (i : Instr) (s t : State) : Prop where
  /-- A pure operation delivers one result and does nothing else. -/
  | pure (r : Result) : IsPure i → t = s.deliver r → ExecNext i s t
  /-- `ARM` records its command. -/
  | arm (cmd : Command) : i = .arm cmd → s.slot.vState ≠ .awaitingResponse → isAscii cmd.op = true →
      t = s.recordCommand cmd → ExecNext i s t
  /-- `RESP` keeps the tag of its verdict and delivers it. -/
  | resp (buf : List Byte) (r : VerificationResult) : i = .resp buf → s.slot.vState = .awaitingResponse →
      verifyReply s.slot.command buf = .next r → t = (s.setVState (resultTag r)).deliver (.verification r) →
      ExecNext i s t
  /-- `ABANDON` goes from `AwaitingResponse` to `Idle`, and does nothing elsewhere. -/
  | abandon : i = .abandon → t = (if s.slot.vState = .awaitingResponse then s.setVState .idle else s) →
      ExecNext i s t

/-- The inversion of `exec`. -/
theorem exec_cases {i : Instr} {s t : State} (h : exec i s = .next t) : ExecNext i s t := by
  cases i with
  | decU8 b0 => exact .pure _ trivial (Host.Outcome.next.inj h).symm
  | decU16 b0 b1 => exact .pure _ trivial (Host.Outcome.next.inj h).symm
  | decS8 b0 => exact .pure _ trivial (Host.Outcome.next.inj h).symm
  | decS16 b0 b1 => exact .pure _ trivial (Host.Outcome.next.inj h).symm
  | parse buf =>
    have h : execParse buf s = .next t := h
    by_cases hl : buf.length < 15
    · rw [execParse_short hl] at h
      exact .pure _ trivial (Host.Outcome.next.inj h).symm
    · rw [execParse_long (Nat.le_of_not_lt hl), andThen_eq_next] at h
      obtain ⟨f, -, h⟩ := h
      exact .pure _ trivial (Host.Outcome.next.inj h).symm
  | enc op v => exact .pure _ trivial (execEnc_eq_next.mp h).2.2
  | verify cmd resp =>
    have h : execVerify cmd resp s = .next t := h
    simp only [execVerify, require_eq_next, andThen_eq_next] at h
    obtain ⟨-, r, -, h⟩ := h
    exact .pure _ trivial (Host.Outcome.next.inj h).symm
  | arm cmd =>
    have h : execArm cmd s = .next t := h
    simp only [execArm, require_eq_next, decide_eq_true_eq] at h
    exact .arm cmd rfl h.1 h.2.1 (Host.Outcome.next.inj h.2.2).symm
  | resp buf =>
    have h : execResp buf s = .next t := h
    simp only [execResp, require_eq_next, decide_eq_true_eq, andThen_eq_next] at h
    obtain ⟨ha, r, hr, h⟩ := h
    exact .resp buf r rfl ha hr (Host.Outcome.next.inj h).symm
  | abandon => exact .abandon rfl (Host.Outcome.next.inj h).symm
  | cmdA v => exact .pure _ trivial (Host.Outcome.next.inj h).symm
  | cmdG v => exact .pure _ trivial (Host.Outcome.next.inj h).symm
  | cmdX v => exact .pure _ trivial (Host.Outcome.next.inj h).symm
  | cmdE v => exact .pure _ trivial (Host.Outcome.next.inj h).symm
  | cmd op v =>
    have h : execCmd op v s = .next t := h
    simp only [execCmd, require_eq_next] at h
    exact .pure _ trivial (Host.Outcome.next.inj h.2).symm

/-- The inversion of `step`: the block waits, the host resets it, or it executes what the request decodes to. -/
theorem step_cases {s t : State} (h : step s = .next t) :
    (s.pending = [] ∧ t = s) ∨
    (∃ rest, s.pending = .reset :: rest ∧ t = State.applyReset { s with pending := rest }) ∨
    (∃ r rest i, s.pending = .request r :: rest ∧ decode r = .ok i ∧ ExecNext i { s with pending := rest } t) := by
  unfold step at h
  match hp : s.pending with
  | [] =>
    rw [takeEvent_waiting hp] at h
    exact .inl ⟨rfl, (Host.Outcome.next.inj h).symm⟩
  | .reset :: rest =>
    rw [takeEvent_reset hp] at h
    exact .inr (.inl ⟨rest, rfl, (Host.Outcome.next.inj h).symm⟩)
  | .request r :: rest =>
    cases hd : decode r with
    | error e =>
      rw [takeEvent_reject hp hd] at h
      exact absurd h nofun
    | ok i =>
      rw [takeEvent_instr hp hd] at h
      exact .inr (.inr ⟨r, rest, i, rfl, hd, exec_cases h⟩)

/-- Slots that agree hold the same outstanding command. -/
theorem SlotsAgree.command_eq {a b : Slot} (h : SlotsAgree a b) (ha : a.vState = .awaitingResponse) :
    b.command = a.command := by
  obtain ⟨ho, hh, hv⟩ := h.2 ha
  by_cases hb : a.vHasVal = true
  · simp [Slot.command, ho, hh, hv hb, hb]
  · simp [Slot.command, ho, hh, hb]

/-- A state is indistinguishable from itself. -/
theorem indistinguishable_refl (s : State) : Indistinguishable s s :=
  ⟨rfl, rfl, rfl, fun _ => ⟨rfl, rfl, fun _ => rfl⟩⟩

/-- Delivering the same result keeps states indistinguishable. -/
theorem Indistinguishable.deliver {s t : State} (h : Indistinguishable s t) (r : Result) :
    Indistinguishable (s.deliver r) (t.deliver r) :=
  ⟨h.1, congrArg (· ++ [r]) h.2.1, h.2.2⟩

/-- Entering the same state other than `AwaitingResponse` keeps states indistinguishable. -/
theorem Indistinguishable.setVState {s t : State} (h : Indistinguishable s t) {v : VState}
    (hv : v ≠ .awaitingResponse) : Indistinguishable (s.setVState v) (t.setVState v) :=
  ⟨h.1, h.2.1, rfl, fun ha => absurd ha hv⟩

/-- Recording the same command makes the slots agree, whatever the free value is. -/
theorem Indistinguishable.recordCommand {s t : State} (h : Indistinguishable s t) (cmd : Command) :
    Indistinguishable (s.recordCommand cmd) (t.recordCommand cmd) := by
  obtain ⟨op, _ | v⟩ := cmd
  · exact ⟨h.1, h.2.1, rfl, fun _ => ⟨rfl, rfl, nofun⟩⟩
  · exact ⟨h.1, h.2.1, rfl, fun _ => ⟨rfl, rfl, fun _ => rfl⟩⟩

/-- A reset makes the slots agree, whatever the free values are. -/
theorem Indistinguishable.applyReset {s t : State} (h : Indistinguishable s t) :
    Indistinguishable s.applyReset t.applyReset :=
  ⟨h.1, h.2.1, rfl, nofun⟩

end Sys2Proof.Machine
end

