-- ==== Sys2Proof/Laws/Words.lean ====
section
/-! SUPPORT. The command word and its fields: each field reads back what was put in, and the encoder's frame is the
word. -/

namespace Sys2Proof

/-- The command word as a number: no carry between the fields. -/
theorem commandWord_toNat (op : Byte) (value : Half) :
    (commandWord op value).toNat =
      op.toNat + value.toNat * 256 + (op.toNat + value.toNat % 256 + value.toNat / 256) % 256 * 16777216 := by
  have ho := op.isLt
  have hv := value.isLt
  have hc := Nat.mod_lt (op.toNat + value.toNat % 256 + value.toNat / 256) (show 0 < 256 by decide)
  simp only [commandWord, BitVec.toNat_ofNat, Config.checksumModulus]
  generalize (op.toNat + value.toNat % 256 + value.toNat / 256) % 256 = c at *
  omega

@[simp] theorem wordOpcode_toNat (w : BitVec 32) : (wordOpcode w).toNat = w.toNat % 256 := by
  simp [wordOpcode]

@[simp] theorem wordValue_toNat (w : BitVec 32) : (wordValue w).toNat = w.toNat / 256 % 65536 := by
  simp [wordValue, Nat.shiftRight_eq_div_pow]

@[simp] theorem wordChecksum_toNat (w : BitVec 32) : (wordChecksum w).toNat = w.toNat / 16777216 % 256 := by
  simp [wordChecksum, Nat.shiftRight_eq_div_pow]

@[simp] theorem wordOpcode_commandWord (op : Byte) (value : Half) : wordOpcode (commandWord op value) = op := by
  have ho := op.isLt
  apply BitVec.eq_of_toNat_eq
  rw [wordOpcode_toNat, commandWord_toNat]
  generalize (op.toNat + value.toNat % 256 + value.toNat / 256) % 256 = c
  omega

@[simp] theorem wordValue_commandWord (op : Byte) (value : Half) : wordValue (commandWord op value) = value := by
  have ho := op.isLt
  have hv := value.isLt
  apply BitVec.eq_of_toNat_eq
  rw [wordValue_toNat, commandWord_toNat]
  generalize (op.toNat + value.toNat % 256 + value.toNat / 256) % 256 = c
  omega

/-- A word is the command word of its opcode and value exactly when its checksum field is right. -/
theorem commandWord_of_fields {w : BitVec 32}
    (h : (wordChecksum w).toNat =
      ((wordOpcode w).toNat + (wordValue w).toNat % 256 + (wordValue w).toNat / 256) % 256) :
    commandWord (wordOpcode w) (wordValue w) = w := by
  have hw := w.isLt
  apply BitVec.eq_of_toNat_eq
  rw [commandWord_toNat, ← h]
  simp only [wordOpcode_toNat, wordValue_toNat, wordChecksum_toNat]
  omega

namespace Machine

/-- A frame as a number: byte `i` in bits `[8i+7 : 8i]`. -/
theorem frameWord_toNat (f : CommandFrame) :
    (frameWord f).toNat =
      f.opcode.toNat + f.valueLow.toNat * 2 ^ 8 + f.valueHigh.toNat * 2 ^ 16 + f.checksum.toNat * 2 ^ 24 := by
  have h0 := f.opcode.isLt
  have h1 := f.valueLow.isLt
  have h2 := f.valueHigh.isLt
  have h3 := f.checksum.isLt
  simp only [frameWord, BitVec.toNat_ofNat]
  omega

/-- The encoder's frame, flattened, is the command word. -/
theorem frameWord_encodeFrame (op : Byte) (value : Half) :
    frameWord (encodeFrame op value.toNat) = commandWord op value := by
  have ho := op.isLt
  have hv := value.isLt
  apply BitVec.eq_of_toNat_eq
  rw [frameWord_toNat, commandWord_toNat, encodeFrame_checksum]
  simp only [encodeFrame_eq, lowByte_toNat, highByte_toNat]
  rw [Nat.mod_eq_of_lt (show value.toNat / 256 < 256 by omega)]
  omega

end Machine

end Sys2Proof
end

