-- ==== Sys2Proof/Laws/PerInstr.lean ====
section
/-! SUPPORT. The family EncodesOwnRow: the encoding of a well-formed instruction carries the fixed bits of its own row
of the opcode table. -/

namespace Sys2Proof.Laws.EncodesOwnRow

/-- The encoding fits the instruction's row. -/
def Statement (i : Instr) : Prop := i.wellFormed = true → (encode i).fits (tableRow i)

/-- The low eight bits of a command word are its opcode. -/
theorem commandWord_low (op : Byte) (value : Half) : (commandWord op value).toNat % 2 ^ 8 = op.toNat := by
  exact (wordOpcode_toNat _).symm.trans (congrArg BitVec.toNat (wordOpcode_commandWord op value))

/-- A mask inside the low eight bits sees the opcode alone. -/
theorem commandWord_and (op : Byte) (value : Half) (mask : Nat) (h : mask < 2 ^ 8) :
    (commandWord op value).toNat &&& mask = op.toNat &&& mask := by
  rw [← commandWord_low op value, ← Nat.and_two_pow_sub_one_eq_mod, Nat.and_assoc,
    Nat.and_comm (2 ^ 8 - 1), Nat.and_two_pow_sub_one_of_lt_two_pow h]

/-- An ASCII code has bit 7 clear. -/
theorem ascii_and (op : Byte) : isAscii op = true → op.toNat &&& 0x80 = 0 := by
  revert op
  decide

theorem decU8 (b0 : Byte) : Statement (.decU8 b0) :=
  fun _ => ⟨rfl, show (0b0000 : BitVec 4).toNat &&& 0xF = 0x0 by decide⟩
theorem decU16 (b0 b1 : Byte) : Statement (.decU16 b0 b1) :=
  fun _ => ⟨rfl, show (0b0001 : BitVec 4).toNat &&& 0xF = 0x1 by decide⟩
theorem decS8 (b0 : Byte) : Statement (.decS8 b0) :=
  fun _ => ⟨rfl, show (0b0010 : BitVec 4).toNat &&& 0xF = 0x2 by decide⟩
theorem decS16 (b0 b1 : Byte) : Statement (.decS16 b0 b1) :=
  fun _ => ⟨rfl, show (0b0011 : BitVec 4).toNat &&& 0xF = 0x3 by decide⟩
theorem parse (buf : List Byte) : Statement (.parse buf) :=
  fun _ => ⟨rfl, show (0b0100 : BitVec 4).toNat &&& 0xF = 0x4 by decide⟩
theorem enc (opcode : Byte) (value : Option Int) : Statement (.enc opcode value) :=
  fun _ => ⟨rfl, show (0b0101 : BitVec 4).toNat &&& 0xF = 0x5 by decide⟩
theorem verify (cmd : Command) (resp : List Byte) : Statement (.verify cmd resp) :=
  fun _ => ⟨rfl, show (0b0110 : BitVec 4).toNat &&& 0xF = 0x6 by decide⟩
theorem arm (cmd : Command) : Statement (.arm cmd) :=
  fun _ => ⟨rfl, show (0b1000 : BitVec 4).toNat &&& 0xF = 0x8 by decide⟩
theorem resp (buf : List Byte) : Statement (.resp buf) :=
  fun _ => ⟨rfl, show (0b1001 : BitVec 4).toNat &&& 0xF = 0x9 by decide⟩
theorem abandon : Statement .abandon :=
  fun _ => ⟨rfl, show (0b1010 : BitVec 4).toNat &&& 0xF = 0xa by decide⟩
theorem cmdA (value : Half) : Statement (.cmdA value) :=
  fun _ => ⟨rfl, (commandWord_and _ _ 0xFF (by decide)).trans (show Config.opcodeA.toNat &&& 0xFF = 0x41 by decide)⟩
theorem cmdG (value : Half) : Statement (.cmdG value) :=
  fun _ => ⟨rfl, (commandWord_and _ _ 0xFF (by decide)).trans (show Config.opcodeG.toNat &&& 0xFF = 0x47 by decide)⟩
theorem cmdX (value : Half) : Statement (.cmdX value) :=
  fun _ => ⟨rfl, (commandWord_and _ _ 0xFF (by decide)).trans (show Config.opcodeX.toNat &&& 0xFF = 0x78 by decide)⟩
theorem cmdE (value : Half) : Statement (.cmdE value) :=
  fun _ => ⟨rfl, (commandWord_and _ _ 0xFF (by decide)).trans (show Config.opcodeE.toNat &&& 0xFF = 0x65 by decide)⟩
theorem cmd (op : Byte) (value : Half) : Statement (.cmd op value) := fun h =>
  ⟨rfl, (commandWord_and _ _ 0x80 (by decide)).trans (ascii_and op (Bool.and_eq_true _ _ ▸ h).1)⟩

end Sys2Proof.Laws.EncodesOwnRow
end

