-- ==== Sys2Proof/Tests/Slice0.lean ====
section
/-! SUPPORT. The model's own tests. Expected values are those of spec 95_test_vectors.md (its ids X, T, E, V, M, F are
named in the comments) or written out from the tables of 30_encoding.md. Each test runs one operation. -/

open Sys2Proof Sys2Proof.Machine

namespace Sys2Proof.Tests

/- ### What the tests look at -/

/-- The state an answer goes on with. -/
def nextOf (a : Answer State) : Option State :=
  match a with
  | .next s => some s
  | .fault _ => none
  | .refused _ => none

/-- The reason an answer refuses. -/
def refusalIn (a : Answer State) : Option Refusal :=
  match a with
  | .next _ => none
  | .fault _ => none
  | .refused r => some r

/-- The results delivered by an answer. -/
def deliveredBy (a : Answer State) : Option (List Result) := (nextOf a).map State.delivered

/-- The slot an answer leaves. -/
def slotAfter (a : Answer State) : Option Slot := (nextOf a).map State.slot

/-- The decoder's instruction. -/
def decoded (r : Request) : Option Instr :=
  match decode r with
  | .ok i => some i
  | .error _ => none

/-- A block whose slot holds the command of rows M2 to M5: `('e', 300)`. -/
def withSlot (v : VState) : State :=
  { State.reset with slot := { vState := v, vOp := 0x65, vHasVal := true, vVal := 300 } }

/-- A block waiting for the reply to `('G')`, rows M9 and M10. -/
def awaitingG : State :=
  { State.reset with slot := { vState := .awaitingResponse, vOp := 0x47, vHasVal := false, vVal := 0 } }

def e300 : Command := { op := 0x65, value := some 300 }

def justG : Command := { op := 0x47, value := none }

/-- The state with one request presented. -/
def asked (s : State) (r : Request) : State := s.present r

def zeros15 : List Byte := List.replicate 15 0

/-- Buffer T1. -/
def bufT1 : List Byte := [0x34, 0x12, 0xE8, 0x03, 0x00, 0x00, 0xFF, 0xFF, 0x9C, 0xFF, 0x2A, 0x00, 0x00, 0x80, 0x80]

/-- Zero in the bytes of `F0`, 0xFF in all the others. -/
def bufFirstTwoZero : List Byte := [0, 0] ++ List.replicate 13 0xFF

def frameT1 : TelemetryFrame :=
  { f0 := 4660, f1 := 1000, f2 := 0, f3 := 65535, f4 := -100, f5 := 42, f6 := 32768, f7 := 128 }

def frameZero : TelemetryFrame := { f0 := 0, f1 := 0, f2 := 0, f3 := 0, f4 := 0, f5 := 0, f6 := 0, f7 := 0 }

/-- The frame of E5. -/
def frameE300 : CommandFrame := { opcode := 0x65, valueLow := 0x2C, valueHigh := 0x01, checksum := 0x92 }

/- ### WellFormed: an ill-formed term for each check -/

theorem test_wf_enc_opcode : (Instr.enc 0x80 (some 0)).wellFormed = false := by decide
theorem test_wf_enc_value : (Instr.enc 0x65 (some (-1))).wellFormed = false := by decide
theorem test_wf_enc_ok : (Instr.enc 0x7F (some 65535)).wellFormed = true := by decide
theorem test_wf_verify_opcode : (Instr.verify { op := 0x80, value := none } [0x80]).wellFormed = false := by decide
theorem test_wf_verify_no_byte : (Instr.verify justG []).wellFormed = false := by decide
theorem test_wf_verify_two_bytes : (Instr.verify e300 [0x65, 0x2C]).wellFormed = false := by decide
theorem test_wf_verify_ok : (Instr.verify e300 [0x65, 0x2C, 0x01]).wellFormed = true := by decide
theorem test_wf_arm_opcode : (Instr.arm { op := 0xFF, value := none }).wellFormed = false := by decide
theorem test_wf_cmd_opcode : (Instr.cmd 0x80 0).wellFormed = false := by decide
theorem test_wf_cmd_e : (Instr.cmd 0x65 300).wellFormed = false := by decide
theorem test_wf_cmd_A_G_x :
    (Instr.cmd 0x41 0).wellFormed = false ∧ (Instr.cmd 0x47 1).wellFormed = false ∧
    (Instr.cmd 0x78 0).wellFormed = false := by decide
theorem test_wf_cmd_ok : (Instr.cmd 0x7F 0xFFFF).wellFormed = true := by decide

/- ### Decoding: the codes of R72 and the words of 95_test_vectors.md 2.3, bit by bit -/

/-- Ports with every operand set to something else. -/
def ports : Ports :=
  { b0 := 0x34, b1 := 0x12, rx := [0x65, 0x2C, 0x01], opcode := 0x65, value := some 300, command := e300 }

theorem test_decode_decU8 : decoded (.op 0b0000 ports) = some (.decU8 0x34) := by decide
theorem test_decode_decU16 : decoded (.op 0b0001 ports) = some (.decU16 0x34 0x12) := by decide
theorem test_decode_decS8 : decoded (.op 0b0010 ports) = some (.decS8 0x34) := by decide
theorem test_decode_decS16 : decoded (.op 0b0011 ports) = some (.decS16 0x34 0x12) := by decide
theorem test_decode_parse : decoded (.op 0b0100 ports) = some (.parse [0x65, 0x2C, 0x01]) := by decide
theorem test_decode_enc : decoded (.op 0b0101 ports) = some (.enc 0x65 (some 300)) := by decide
theorem test_decode_verify : decoded (.op 0b0110 ports) = some (.verify e300 [0x65, 0x2C, 0x01]) := by decide
theorem test_decode_arm : decoded (.op 0b1000 ports) = some (.arm e300) := by decide
theorem test_decode_resp : decoded (.op 0b1001 ports) = some (.resp [0x65, 0x2C, 0x01]) := by decide
theorem test_decode_abandon : decoded (.op 0b1010 ports) = some .abandon := by decide
/-- E1: checksum 0x41, value 0x0000, opcode 0x41. -/
theorem test_decode_cmdA : decoded (.frame 0b01000001_00000000_00000000_01000001) = some (.cmdA 0) := by decide
/-- E2. -/
theorem test_decode_cmdG : decoded (.frame 0b01000111_00000000_00000000_01000111) = some (.cmdG 0) := by decide
/-- E3. -/
theorem test_decode_cmdX : decoded (.frame 0b01111000_00000000_00000000_01111000) = some (.cmdX 0) := by decide
/-- E5: checksum 0x92, value 0x012C, opcode 0x65. -/
theorem test_decode_cmdE : decoded (.frame 0b10010010_00000001_00101100_01100101) = some (.cmdE 300) := by decide
/-- E16. -/
theorem test_decode_cmd :
    decoded (.frame 0b01111101_11111111_11111111_01111111) = some (.cmd 0x7F 0xFFFF) := by decide
/-- Byte 0 alone tells the opcode: a frame of `'A'` that carries 5. -/
theorem test_decode_cmdA_value : decoded (.frame 0x46000541) = some (.cmdA 5) := by decide
/-- E17: an unlisted opcode. -/
theorem test_decode_cmd_zero : decoded (.frame 0) = some (.cmd 0 0) := by decide
theorem test_decode_reserved :
    ([0b0111, 0b1011, 0b1100, 0b1101, 0b1110, 0b1111] : List (BitVec 4)).all
      (fun c => decoded (.op c ports) = none) = true := by decide
theorem test_decode_non_ascii : decoded (.frame 0x80000080) = none := by decide
theorem test_table_words_operations :
    ([0, 1, 2, 3, 4, 5, 6, 7, 8, 9, 10, 11] : List Nat).map (fun w => (decodeTableWord 8 w).isSome) =
      [true, true, true, true, true, true, true, false, true, true, true, false] := by decide
theorem test_table_words_frames :
    decodeTableWord 32 0x41 = some (.cmdA 0) ∧ decodeTableWord 32 0x47 = some (.cmdG 0) ∧
    decodeTableWord 32 0x78 = some (.cmdX 0) ∧ decodeTableWord 32 0x65 = some (.cmdE 0) ∧
    decodeTableWord 32 0 = some (.cmd 0 0) := by decide
/-- The word of E10 from the encoder. -/
theorem test_encode_cmdE : encode (.cmdE 0x1234) = .frame 0xAB123465 := by decide
theorem test_fetch_first :
    deliveredBy (step (State.reset.withFetchWord 32 0x65)) =
      some [.commandFrame { opcode := 0x65, valueLow := 0, valueHigh := 0, checksum := 0x65 }] := by decide

/- ### One operation each -/

/-- The largest byte, and the byte with the sign bit alone. -/
theorem test_decU8 :
    deliveredBy (exec (.decU8 0xFF) State.reset) = some [.integer 255] ∧
    deliveredBy (exec (.decU8 0x80) State.reset) = some [.integer 128] := by decide
/-- X3, and the same bytes the other way round. -/
theorem test_decU16 :
    deliveredBy (exec (.decU16 0x34 0x12) State.reset) = some [.integer 0x1234] ∧
    deliveredBy (exec (.decU16 0x12 0x34) State.reset) = some [.integer 13330] := by decide
/-- X2 and X4. -/
theorem test_decS8 :
    deliveredBy (exec (.decS8 0x80) State.reset) = some [.integer (-128)] ∧
    deliveredBy (exec (.decS8 0x7F) State.reset) = some [.integer 127] := by decide
/-- X1. -/
theorem test_decS16_minus_one : deliveredBy (exec (.decS16 0xFF 0xFF) State.reset) = some [.integer (-1)] := by decide
/-- The low byte's bit 7 is no sign bit; the high byte's is. -/
theorem test_decS16_sign_bit :
    deliveredBy (exec (.decS16 0xFF 0x00) State.reset) = some [.integer 255] ∧
    deliveredBy (exec (.decS16 0x00 0x80) State.reset) = some [.integer (-32768)] := by decide
/-- T1, and T8: bytes 15 and up are not read. -/
theorem test_parse :
    deliveredBy (exec (.parse bufT1) State.reset) = some [.telemetry frameT1] ∧
    deliveredBy (exec (.parse (bufT1 ++ [0xAA, 0xBB])) State.reset) = some [.telemetry frameT1] := by decide
/-- T9, F1: one byte short. The slot is as it was (M10). -/
theorem test_parse_short :
    deliveredBy (exec (.parse (bufT1.take 14)) awaitingG) = some [.frameTooShort] ∧
    slotAfter (exec (.parse (bufT1.take 14)) awaitingG) = some awaitingG.slot := by decide
/-- X6 (E5), and E7, whose checksum wraps. -/
theorem test_enc :
    deliveredBy (exec (.enc 0x65 (some 300)) State.reset) = some [.commandFrame frameE300] ∧
    deliveredBy (exec (.enc 0x65 (some 255)) State.reset) =
      some [.commandFrame { opcode := 0x65, valueLow := 0xFF, valueHigh := 0, checksum := 0x64 }] := by decide
/-- X10 (E2, no value), and E18, whose bit 16 is masked off. -/
theorem test_enc_no_value_and_masked :
    deliveredBy (exec (.enc 0x47 none) State.reset) =
      some [.commandFrame { opcode := 0x47, valueLow := 0, valueHigh := 0, checksum := 0x47 }] ∧
    deliveredBy (exec (.enc 0x65 (some 65836)) State.reset) = some [.commandFrame frameE300] := by decide
/-- X8: V1, V2, V3. -/
theorem test_verify :
    deliveredBy (exec (.verify e300 [0x65, 0x2C, 0x01]) State.reset) = some [.verification .matched] ∧
    deliveredBy (exec (.verify e300 [0x65, 0x2B, 0x01]) State.reset) =
      some [.verification (.valueMismatch 300 299)] ∧
    deliveredBy (exec (.verify e300 [0x45, 0x2C, 0x01]) State.reset) = some [.verification .opcodeMismatch] := by decide
/-- V7 (bytes swapped), V8 (value 0 is compared), V12 (no value: bytes 1 and 2 are not read). -/
theorem test_verify_value_echo :
    deliveredBy (exec (.verify e300 [0x65, 0x01, 0x2C]) State.reset) =
      some [.verification (.valueMismatch 300 11265)] ∧
    deliveredBy (exec (.verify { op := 0x65, value := some 0 } [0x65, 0x01, 0x00]) State.reset) =
      some [.verification (.valueMismatch 0 1)] ∧
    deliveredBy (exec (.verify { op := 0x65, value := none } [0x65, 0x2B, 0x01]) State.reset) =
      some [.verification .matched] := by decide
/-- M1. -/
theorem test_arm : slotAfter (exec (.arm e300) State.reset) = some (withSlot .awaitingResponse).slot := by decide
/-- M6: a terminal state is left by `ARM`. -/
theorem test_arm_from_matched :
    (slotAfter (exec (.arm justG) (withSlot .matched))).map (fun d => (d.vState, d.vOp, d.vHasVal)) =
      some (.awaitingResponse, 0x47, false) := by decide
/-- M2. -/
theorem test_resp_matched :
    nextOf (exec (.resp [0x65, 0x2C, 0x01, 0x92]) (withSlot .awaitingResponse)) =
      some { withSlot .matched with delivered := [.verification .matched] } := by decide
/-- M3 and M4. -/
theorem test_resp_mismatches :
    nextOf (exec (.resp [0x65, 0x2B, 0x01, 0x91]) (withSlot .awaitingResponse)) =
      some { withSlot .valueMismatch with delivered := [.verification (.valueMismatch 300 299)] } ∧
    nextOf (exec (.resp [0x47, 0x2C, 0x01]) (withSlot .awaitingResponse)) =
      some { withSlot .opcodeMismatch with delivered := [.verification .opcodeMismatch] } := by decide
/-- M5 and M7. -/
theorem test_abandon :
    nextOf (exec .abandon (withSlot .awaitingResponse)) = some (withSlot .idle) ∧
    nextOf (exec .abandon (withSlot .valueMismatch)) = some (withSlot .valueMismatch) := by decide
/-- E1, E2, E3. -/
theorem test_cmd_A_G_x :
    deliveredBy (exec (.cmdA 0) State.reset) =
      some [.commandFrame { opcode := 0x41, valueLow := 0, valueHigh := 0, checksum := 0x41 }] ∧
    deliveredBy (exec (.cmdG 0) State.reset) =
      some [.commandFrame { opcode := 0x47, valueLow := 0, valueHigh := 0, checksum := 0x47 }] ∧
    deliveredBy (exec (.cmdX 0) State.reset) =
      some [.commandFrame { opcode := 0x78, valueLow := 0, valueHigh := 0, checksum := 0x78 }] := by decide
/-- E14 (the sum is 256) and E16. -/
theorem test_cmdE_and_cmd :
    deliveredBy (exec (.cmdE 155) State.reset) =
      some [.commandFrame { opcode := 0x65, valueLow := 0x9B, valueHigh := 0, checksum := 0 }] ∧
    deliveredBy (exec (.cmd 0x7F 65535) State.reset) =
      some [.commandFrame { opcode := 0x7F, valueLow := 0xFF, valueHigh := 0xFF, checksum := 0x7D }] := by decide
/-- M11. -/
theorem test_reset :
    (slotAfter (step { withSlot .awaitingResponse with pending := [.reset] })).map Slot.vState = some .idle := by decide
/-- F1, F3. -/
theorem test_error_codes :
    errorCode .frameTooShort = 1 ∧ errorCode (.verification (.valueMismatch 300 299)) = 0 := by decide
/-- Scripts P1 to P3: what `POLL`, `EXCHANGE` and `ISET` present. -/
theorem test_scripts :
    pollScript bufT1 = [.request (encode (.enc 0x41 none)), .request (encode (.parse bufT1))] ∧
    exchangeScript e300 [0x65] =
      [.request (encode (.enc 0x65 (some 300))), .request (encode (.arm e300)), .request (encode (.resp [0x65]))] ∧
    isetScript [0x47, 0x2A, 0x00, 0x71] = some [.request (encode (.decU16 0x2A 0x00))] ∧
    isetScript [0x47, 0x2A] = none := by decide

/- ### Refusals: the list of R184 -/

theorem test_refuse_bad_field_length :
    refusalIn (step (asked State.reset (.decodeUnsigned []))) = some .badFieldLength ∧
    refusalIn (step (asked State.reset (.decodeSigned [1, 2, 3]))) = some .badFieldLength := by decide
/-- The three of 95_test_vectors.md 2.4, and M14. -/
theorem test_refuse_short_response :
    refusalIn (exec (.verify justG []) State.reset) = some .shortResponse ∧
    refusalIn (exec (.verify e300 [0x65, 0x2C]) State.reset) = some .shortResponse ∧
    refusalIn (exec (.verify e300 [0x64]) State.reset) = some .shortResponse ∧
    refusalIn (exec (.resp [0x65, 0x2C]) (withSlot .awaitingResponse)) = some .shortResponse := by decide
/-- M12. -/
theorem test_refuse_outstanding :
    refusalIn (exec (.arm { op := 0x78, value := none }) (withSlot .awaitingResponse)) =
      some .commandOutstanding := by decide
/-- M13. -/
theorem test_refuse_nothing_outstanding :
    refusalIn (exec (.resp [0x65]) State.reset) = some .nothingOutstanding ∧
    refusalIn (exec (.resp [0x65]) (withSlot .matched)) = some .nothingOutstanding := by decide
theorem test_refuse_non_ascii :
    refusalIn (exec (.enc 0x80 (some 0)) State.reset) = some .nonAsciiOpcode ∧
    refusalIn (step (asked State.reset (.frame 0x80000080))) = some .nonAsciiOpcode := by decide
theorem test_refuse_negative : refusalIn (exec (.enc 0x65 (some (-1))) State.reset) = some .negativeValue := by decide
theorem test_refuse_reserved :
    refusalIn (step (asked State.reset (.op 0b0111 ports))) = some .reservedOpsel ∧
    refusalIn (step (asked State.reset (.op 0b1011 ports))) = some .reservedOpsel := by decide

/- ### Witnesses: inputs that meet the hypotheses of each statement, at the boundaries of its clauses -/

theorem witness_DecodeSignedIsTwosComplement :
    65535 = (0xFF : Byte).toNat + (0xFF : Byte).toNat * 2 ^ 8 ∧
    32767 = (0xFF : Byte).toNat + (0x7F : Byte).toNat * 2 ^ 8 := by decide

theorem witness_OtherFieldLengthsAreRefused :
    (([] : List Byte).length ≠ 1 ∧ ([] : List Byte).length ≠ 2) ∧
    (([0, 0, 0] : List Byte).length ≠ 1 ∧ ([0, 0, 0] : List Byte).length ≠ 2) ∧
    ∀ i ∈ [Instr.decU8 0xFF, .decU16 0xFF 0x80, .decS8 0xFF, .decS16 0xFF 0x80],
      i ∈ [Instr.decU8 0xFF, .decU16 0xFF 0x80, .decS8 0xFF, .decS16 0xFF 0x80] :=
  ⟨by decide, by decide, fun _ h => h⟩

theorem witness_DecodeArithmeticLaws :
    decU (.one 0x7F) < 2 ^ (sliceWidth (.one 0x7F) - 1) ∧ 2 ^ (sliceWidth (.one 0x80) - 1) ≤ decU (.one 0x80) ∧
    decU (.two 0xFF 0x7F) < 2 ^ (sliceWidth (.two 0xFF 0x7F) - 1) ∧
    2 ^ (sliceWidth (.two 0x00 0x80) - 1) ≤ decU (.two 0x00 0x80) ∧
    sliceWidth (.two 1 2) = sliceWidth (.two 3 4) ∧ decU (.one 5) = decU (.one 5) ∧ decS (.one 5) = decS (.one 5) := by
  decide

theorem witness_DecodesAreTotalAndPure :
    Instr.decS16 0x00 0x80 ∈ [.decU8 0x00, .decU16 0x00 0x80, .decS8 0x00, .decS16 0x00 0x80] := by decide

theorem witness_AssemblyInvertsSplit : 65535 ≤ 65535 ∧ 0 ≤ 65535 := by decide

theorem witness_ParseReadsEightFields : (bufT1.take 14).length < 15 ∧ ([] : List Byte).length < 15 := by decide

theorem witness_ParseFieldsAreIndependent :
    exec (.parse bufT1) State.reset =
      .next { State.reset with delivered := State.reset.delivered ++ [.telemetry frameT1] } ∧
    exec (.parse (bufT1 ++ [0xAA])) State.reset =
      .next { State.reset with delivered := State.reset.delivered ++ [.telemetry frameT1] } ∧
    ∀ k ∈ List.range 15, bufT1[k]? = (bufT1 ++ [0xAA])[k]? := ⟨rfl, rfl, by decide⟩

/-- Two buffers that agree in the bytes of `F0` and in no other. -/
theorem witness_ParseFieldsAreIndependent_differing :
    exec (.parse zeros15) State.reset =
      .next { State.reset with delivered := State.reset.delivered ++ [.telemetry frameZero] } ∧
    exec (.parse bufFirstTwoZero) State.reset =
      .next { State.reset with
        delivered := State.reset.delivered ++
          [.telemetry { f0 := 0, f1 := 65535, f2 := 65535, f3 := 65535, f4 := -1, f5 := 65535, f6 := 65535, f7 := 255 }] } ∧
    zeros15[0]? = bufFirstTwoZero[0]? ∧ zeros15[1]? = bufFirstTwoZero[1]? ∧
    zeros15[2]? ≠ bufFirstTwoZero[2]? := ⟨rfl, rfl, by decide, by decide, by decide⟩

theorem witness_ParseChecksLengthOnly : (bufT1.take 14).length < 15 ∧ 15 ≤ bufT1.length := by decide

theorem witness_ParseIgnoresSurplusBytes : 15 ≤ bufT1.length ∧ 15 ≤ (bufT1 ++ [0xAA, 0xBB]).length := by decide

theorem witness_ParseIsPure :
    (bufT1 ++ [0xAA]).take 15 = (bufT1 ++ [0xBB]).take 15 ∧ (bufT1 ++ [0xAA]).length = (bufT1 ++ [0xBB]).length := by
  decide

theorem witness_ParseIsInjectiveWithinRanges :
    exec (.parse bufT1) State.reset =
      .next { State.reset with delivered := State.reset.delivered ++ [.telemetry frameT1] } ∧
    (0 : Int) ∈ [frameT1.f0, frameT1.f1, frameT1.f2, frameT1.f3, frameT1.f5, frameT1.f6] ∧
    bufT1.length = 15 := ⟨rfl, by decide, by decide⟩

theorem witness_TelemetryBitsAreFields : 2 ^ 120 - 1 < 2 ^ 120 ∧ 0 < 2 ^ 120 := by decide

theorem witness_EncBuildsFrame : (0x7F : Byte).toNat ≤ 0x7F ∧ 65535 ≤ 65535 := by decide

theorem witness_ChecksumSumsStoredBytes :
    exec (.enc 0x65 (some 300)) State.reset = .next (State.reset.deliver (.commandFrame frameE300)) ∧
    (State.reset.deliver (.commandFrame frameE300)).delivered =
      State.reset.delivered ++ [.commandFrame frameE300] := ⟨rfl, rfl⟩

theorem witness_EncValueRoundTrips : (0x65 : Byte).toNat ≤ 0x7F ∧ 65535 ≤ 65535 ∧ 0 ≤ 65535 := by decide

theorem witness_EncOmittedValueIsZero : (0x7F : Byte).toNat ≤ 0x7F ∧ (0 : Byte).toNat ≤ 0x7F := by decide

theorem witness_EncMasksWideValues :
    (0x7F : Byte).toNat ≤ 0x7F ∧ (0 : Int) ≤ 65536 ∧ (0 : Int) ≤ 0 ∧ (-1 : Int) < 0 := by decide

theorem witness_NonAsciiOpcodesAreRefused :
    0x80 ≤ (0x80 : Byte).toNat ∧ 0x80 ≤ (0xFF : Byte).toNat ∧ State.reset.slot.vState ≠ .awaitingResponse ∧
    (0x80000080 : BitVec 32).toNat % 256 = (0x80 : Byte).toNat := by decide

theorem witness_CommandFrameRowsDeliverTheirFrame :
    ((0x41 : Byte) = 0x41 ∧ Instr.cmdA 0xFFFF = .cmdA 0xFFFF) ∧ ((0x47 : Byte) = 0x47 ∧ Instr.cmdG 0 = .cmdG 0) ∧
    ((0x78 : Byte) = 0x78 ∧ Instr.cmdX 1 = .cmdX 1) ∧ ((0x65 : Byte) = 0x65 ∧ Instr.cmdE 300 = .cmdE 300) ∧
    (0x7F : Byte).toNat ≤ 0x7F ∧ Instr.cmd 0x7F 0xFFFF = .cmd 0x7F 0xFFFF := by decide

theorem witness_DeliveredFrameIsTheEncodedWord :
    (Instr.cmd 0x7F 0xFFFF).wellFormed = true ∧ encode (.cmd 0x7F 0xFFFF) = .frame 0x7DFFFF7F ∧
    (Instr.cmdA 0).wellFormed = true ∧ encode (.cmdA 0) = .frame 0x41000041 := by decide

theorem witness_EncIsInjective :
    exec (.enc 0x65 (some (300 : Nat))) State.reset = .next (State.reset.deliver (.commandFrame frameE300)) ∧
    exec (.enc 0x65 (some (65836 : Nat))) State.reset = .next (State.reset.deliver (.commandFrame frameE300)) :=
  ⟨rfl, rfl⟩

theorem witness_VerifyFollowsTransitionRule :
    (0x7F : Byte).toNat ≤ 0x7F ∧ ([0x7F, 0x00] : List Byte).length < 3 ∧ ([] : List Byte).length < 3 := by decide

theorem witness_ValueMismatchCarriesSentAndDecoded :
    exec (.verify e300 [0x65, 0x2B, 0x01]) State.reset =
      .next (State.reset.deliver (.verification (.valueMismatch 300 299))) ∧
    exec (.resp [0x65, 0x2B, 0x01]) (withSlot .awaitingResponse) =
      .next ((withSlot .valueMismatch).deliver (.verification (.valueMismatch 300 299))) ∧
    ((withSlot .valueMismatch).deliver (.verification (.valueMismatch 300 299))).delivered =
      (withSlot .awaitingResponse).delivered ++ [.verification (.valueMismatch 300 299)] := ⟨rfl, rfl, rfl⟩

theorem witness_VerifyIsExactEquality : e300.op.toNat ≤ 0x7F ∧ e300.value = some 300 ∧ justG.op.toNat ≤ 0x7F := by
  decide

theorem witness_UnreadBytesDoNotMatter :
    bufT1.length = 15 ∧ justG.value = none ∧ awaitingG.slot.vHasVal = false := by decide

theorem witness_ArmRecordsCommand :
    (withSlot .awaitingResponse).slot.vState = .awaitingResponse ∧
    (withSlot .valueMismatch).slot.vState ≠ .awaitingResponse ∧ (0x7F : Byte).toNat ≤ 0x7F ∧
    e300.value = some 300 := by decide

theorem witness_RespTakesOneStep :
    State.reset.slot.vState ≠ .awaitingResponse ∧
    ((withSlot .awaitingResponse).slot.vState = .awaitingResponse ∧
      (withSlot .awaitingResponse).slot.vHasVal = true ∧ ([0x65, 0x2C] : List Byte).length < 3) ∧
    (awaitingG.slot.vState = .awaitingResponse ∧ awaitingG.slot.vHasVal = false) := by decide

theorem witness_AbandonFreesSlot :
    awaitingG.slot.vState = .awaitingResponse ∧ (withSlot .matched).slot.vState ≠ .awaitingResponse := by decide

theorem witness_SlotTransitions :
    exec (.decU8 1) awaitingG = .next (awaitingG.deliver (.integer 1)) ∧
    exec (.arm e300) (withSlot .matched) = .next (withSlot .awaitingResponse) ∧
    exec (.resp [0x65, 0x2C, 0x01]) (withSlot .awaitingResponse) =
      .next ((withSlot .matched).deliver (.verification .matched)) ∧
    exec .abandon (withSlot .awaitingResponse) = .next (withSlot .idle) ∧
    exec .abandon (withSlot .matched) = .next (withSlot .matched) := ⟨rfl, rfl, rfl, rfl, rfl⟩

theorem witness_ArmThenRespAgreesWithVerify :
    (State.reset.slot.vState ≠ .awaitingResponse ∧ e300.op.toNat ≤ 0x7F ∧
      replyLongEnough e300 [0x65, 0x2B, 0x01] = true) ∧
    ((withSlot .opcodeMismatch).slot.vState ≠ .awaitingResponse ∧ justG.op.toNat ≤ 0x7F ∧
      replyLongEnough justG [0x67] = true) := by decide

theorem witness_OwnFrameAlwaysMatches : (0x7F : Byte).toNat ≤ 0x7F := by decide

theorem witness_ExchangeEndsInItsVerdict :
    (withSlot .valueMismatch).slot.vState ≠ .awaitingResponse ∧ e300.op.toNat ≤ 0x7F ∧
    replyLongEnough e300 [0x65, 0x2C, 0x01] = true ∧ replyLongEnough justG [0x47] = true := by decide

theorem witness_AnyBufferThatBeginsRightMatches :
    (awaitingG.slot.vState = .awaitingResponse ∧ awaitingG.slot.vHasVal = false) ∧
    (withSlot .awaitingResponse).slot.vState = .awaitingResponse ∧
    (0x2C : Byte).toNat + 256 * (0x01 : Byte).toNat = (withSlot .awaitingResponse).slot.vVal.toNat := by decide

theorem witness_FrameTooShortOnlyFromShortParse :
    exec (.parse (bufT1.take 14)) State.reset = .next (State.reset.deliver .frameTooShort) ∧
    (State.reset.deliver .frameTooShort).delivered = State.reset.delivered ++ [.frameTooShort] := ⟨rfl, rfl⟩

theorem witness_MismatchesAreResults :
    (e300.op.toNat ≤ 0x7F ∧ replyLongEnough e300 [0x64, 0x2B, 0x01] = true) ∧
    (withSlot .awaitingResponse).slot.vState = .awaitingResponse ∧
    replyLongEnough (withSlot .awaitingResponse).slot.command [0x65, 0x2B, 0x01] = true := by decide

theorem witness_OperationsCompleteExactlyInContract :
    InContract (.resp [0x65, 0x2C, 0x01]) (withSlot .awaitingResponse) ∧ InContract (.enc 0x7F (some 0)) State.reset ∧
    InContract (.arm e300) (withSlot .matched) ∧ ¬ InContract (.resp [0x65]) State.reset ∧
    ¬ InContract (.enc 0x7F (some (-1))) State.reset ∧ ¬ InContract (.cmd 0x80 0) State.reset :=
  ⟨⟨by decide, by decide⟩, ⟨by decide, by decide⟩, ⟨by decide, by decide⟩, fun h => absurd h.1 (by decide),
    fun h => absurd h.2 (by decide), fun h => absurd (show isAscii 0x80 = true from h) (by decide)⟩

theorem witness_ResetEventIdles :
    ({ withSlot .awaitingResponse with pending := [.reset] } : State).pending = .reset :: [] := by decide

theorem witness_FirstOperationAfterReset :
    State.reset.slot.vState = .idle ∧ (Instr.arm e300).wellFormed = true ∧
    ∀ buf, Instr.arm e300 ≠ .resp buf := ⟨by decide, by decide, nofun⟩

/-- One well-formed instruction of every row. -/
theorem witness_DecodeOfEncode :
    [Instr.decU8 0xFF, .decU16 0xFF 0x80, .decS8 0x80, .decS16 0x00 0x80, .parse bufT1, .enc 0x7F (some 65536),
      .verify e300 [0x65, 0x2C, 0x01], .arm e300, .resp [], .abandon, .cmdA 0, .cmdG 0, .cmdX 0, .cmdE 0xFFFF,
      .cmd 0x7F 1].all Instr.wellFormed = true := by decide

theorem witness_FrameWordsRoundTrip :
    (wordChecksum 0x7DFFFF7F).toNat =
      ((wordOpcode 0x7DFFFF7F).toNat + (wordValue 0x7DFFFF7F).toNat % 256 + (wordValue 0x7DFFFF7F).toNat / 256) % 256 ∧
    (wordOpcode 0x7DFFFF7F).toNat ≤ 0x7F ∧
    (wordChecksum 0x46000541).toNat =
      ((wordOpcode 0x46000541).toNat + (wordValue 0x46000541).toNat % 256 + (wordValue 0x46000541).toNat / 256) % 256 ∧
    (wordOpcode 0x46000541).toNat ≤ 0x7F := by decide

theorem witness_ReservedOpselsAreRefused :
    ((0b0111 : BitVec 4).toNat = 0b0111 ∨ 0b1011 ≤ (0b0111 : BitVec 4).toNat) ∧
    ((0b1011 : BitVec 4).toNat = 0b0111 ∨ 0b1011 ≤ (0b1011 : BitVec 4).toNat) ∧
    ((0b1111 : BitVec 4).toNat = 0b0111 ∨ 0b1011 ≤ (0b1111 : BitVec 4).toNat) := by decide

theorem witness_StepRunsDecodedInstruction :
    (asked awaitingG (.op 0b1010 ports)).pending = .request (.op 0b1010 ports) :: [] ∧
    decode (.op 0b1010 ports) = .ok .abandon ∧
    (asked awaitingG (.op 0b0111 ports)).pending = .request (.op 0b0111 ports) :: [] ∧
    decode (.op 0b0111 ports) = .error .reservedOpsel := ⟨rfl, rfl, rfl, rfl⟩

theorem witness_StepWaitsWithNothingPresented : awaitingG.pending = [] := by decide

theorem witness_StepKeepsSlotInvariant :
    SlotInv (withSlot .awaitingResponse).slot ∧
    step (asked (withSlot .awaitingResponse) (encode (.resp [0x65, 0x2B, 0x01]))) =
      .next ((withSlot .valueMismatch).deliver (.verification (.valueMismatch 300 299))) :=
  ⟨⟨fun _ => by decide, fun h => absurd h (by decide)⟩, rfl⟩

/-- A state to which the second clause of the invariant applies. -/
theorem witness_StepKeepsSlotInvariant_valueMismatch :
    SlotInv (withSlot .valueMismatch).slot ∧ (withSlot .valueMismatch).slot.vState = .valueMismatch ∧
    step (withSlot .valueMismatch) = .next (withSlot .valueMismatch) :=
  ⟨⟨fun _ => by decide, fun _ => by decide⟩, rfl, rfl⟩

theorem witness_DeliveredResultsAreNotRead :
    step (asked awaitingG (encode (.decU8 7))) = .next (awaitingG.deliver (.integer 7)) ∧
    step (asked awaitingG (.op 0b0111 ports)) = .refused .reservedOpsel := ⟨rfl, rfl⟩

/-- The same `('G')` outstanding with another `V_VAL`; and two idle slots with nothing else in common. -/
theorem witness_UnspecifiedRegistersAreNotObservable :
    Indistinguishable awaitingG { awaitingG with slot := { awaitingG.slot with vVal := 0xFFFF } } ∧
    Indistinguishable State.reset (withSlot .idle) ∧
    step (asked awaitingG (encode .abandon)) = .next (awaitingG.setVState .idle) ∧
    step (asked awaitingG (encode (.arm e300))) = .refused .commandOutstanding ∧
    exec (.arm e300) State.reset = .next (withSlot .awaitingResponse) ∧
    exec (.resp []) awaitingG = .refused .shortResponse :=
  ⟨⟨rfl, rfl, rfl, fun _ => ⟨rfl, rfl, fun h => absurd h (by decide)⟩⟩,
    ⟨rfl, rfl, rfl, fun h => absurd h (by decide)⟩, rfl, rfl, rfl, rfl⟩

theorem witness_PureOperationsDependOnOperandsAlone :
    IsPure (.parse bufT1) ∧ IsPure (.verify justG []) ∧ IsPure (.cmdA 0) := ⟨trivial, trivial, trivial⟩

theorem witness_PureOperationsCommute :
    IsPure (.decU8 7) ∧ IsPure (.parse []) ∧ exec (.decU8 7) State.reset = .next (State.reset.deliver (.integer 7)) ∧
    exec (.parse []) (State.reset.deliver (.integer 7)) =
      .next ((State.reset.deliver (.integer 7)).deliver .frameTooShort) := ⟨trivial, trivial, rfl, rfl⟩

theorem witness_CompletedOperationsChangeNothingElse :
    exec (.resp [0x65, 0x2C, 0x01]) (withSlot .awaitingResponse) =
      .next ((withSlot .matched).deliver (.verification .matched)) ∧
    (∀ cmd, Instr.resp [0x65, 0x2C, 0x01] ≠ .arm cmd) ∧ Instr.resp [0x65, 0x2C, 0x01] ≠ .abandon ∧
    exec (.cmdA 0) awaitingG = .next (awaitingG.deliver (.commandFrame (encodeFrame 0x41 0))) ∧ IsPure (.cmdA 0) :=
  ⟨rfl, nofun, nofun, rfl, trivial⟩

theorem witness_AwaitingIsLeftByTheHostOnly :
    step (asked awaitingG (encode .abandon)) = .next (awaitingG.setVState .idle) ∧
    (asked awaitingG (encode .abandon)).slot.vState = .awaitingResponse ∧
    (awaitingG.setVState .idle).slot.vState ≠ .awaitingResponse := ⟨rfl, by decide, by decide⟩

/-- From a waiting block: the host presents `ABANDON`, the block takes it. -/
theorem witness_RunsKeepInvariantAndDeliveries :
    Reaches awaitingG { awaitingG with slot := { awaitingG.slot with vState := .idle } } ∧ SlotInv awaitingG.slot :=
  ⟨.step (.host [.request (encode .abandon)] .start) rfl, fun _ => by decide, fun h => absurd h (by decide)⟩

theorem witness_IsetDecodesBytesOneAndTwo : ([0x47, 0x2A] : List Byte).length < 3 ∧ ([] : List Byte).length < 3 := by
  decide

end Sys2Proof.Tests
end

section
/-! PROOFS. The bytes the block does not read (spec 20_memory.md R51): the parser's and the verifier's computations agree
on buffers that agree on the bytes they read, and an operation's outcome is a function of those computations. -/

namespace Sys2Proof.Machine

/- ### FrameParser -/

/-- The reads of `PARSE` lie in the first 15 bytes (R48). -/
theorem readTelemetry_append_congr {buf : List Byte} (h : 15 ≤ buf.length) (x y : List Byte) :
    readTelemetry (buf ++ x) = readTelemetry (buf ++ y) := by
  obtain ⟨b0, b1, b2, b3, b4, b5, b6, b7, b8, b9, b10, b11, b12, b13, b14, surplus, rfl⟩ := exists_fifteen h
  simp only [List.cons_append, readTelemetry_cons]

/-- `PARSE` does not depend on what follows the first 15 bytes: both buffers pass the length check. -/
theorem exec_parse_append_congr {buf : List Byte} (h : 15 ≤ buf.length) (x y : List Byte) (s : State) :
    exec (.parse (buf ++ x)) s = exec (.parse (buf ++ y)) s := by
  have hlong (z : List Byte) : 15 ≤ (buf ++ z).length := h.trans (List.sublist_append_left buf z).length_le
  show execParse (buf ++ x) s = execParse (buf ++ y) s
  rw [execParse_long (hlong x), execParse_long (hlong y), readTelemetry_append_congr h x y]

/- ### ResponseVerifier -/

/-- A command without a value has only byte 0 of the reply read (R153, R154). -/
theorem verifyReply_congr_of_value_none {cmd : Command} (h : cmd.value = none) (r0 : Byte) (x y : List Byte) :
    verifyReply cmd (r0 :: x) = verifyReply cmd (r0 :: y) := by
  obtain ⟨op, _⟩ := cmd
  subst h
  rw [verifyReply_none, verifyReply_none]

/-- No command has a byte of the reply from index 3 on read (R152). -/
theorem verifyReply_congr_of_first_three (cmd : Command) (r0 r1 r2 : Byte) (x y : List Byte) :
    verifyReply cmd (r0 :: r1 :: r2 :: x) = verifyReply cmd (r0 :: r1 :: r2 :: y) := by
  obtain ⟨op, _ | v⟩ := cmd
  · exact verifyReply_congr_of_value_none rfl r0 _ _
  · rw [verifyReply_some, verifyReply_some]

/-- `VERIFY` uses the reply in the transition rule alone. -/
theorem exec_verify_congr {cmd : Command} {a b : List Byte} (h : verifyReply cmd a = verifyReply cmd b) (s : State) :
    exec (.verify cmd a) s = exec (.verify cmd b) s := by
  show execVerify cmd a s = execVerify cmd b s
  rw [execVerify, execVerify, h]

/-- `RESP` uses the reply in the transition rule on the recorded command alone. -/
theorem exec_resp_congr {s : State} {a b : List Byte}
    (h : verifyReply s.slot.command a = verifyReply s.slot.command b) : exec (.resp a) s = exec (.resp b) s := by
  show execResp a s = execResp b s
  rw [execResp, execResp, h]

/-- The recorded command has no value when `V_HASVAL` is 0 (R27). -/
theorem Slot.command_value_of_not_hasVal {slot : Slot} (h : slot.vHasVal = false) : slot.command.value = none := by
  simp [Slot.command, h]

/-- Settles O28: each outcome is that of a computation that agrees on the bytes read. -/
theorem unreadBytesDoNotMatter : Obligations.UnreadBytesDoNotMatter := by
  unfold Obligations.UnreadBytesDoNotMatter
  intro s x y
  refine ⟨?parse, ?verify, ?resp, ?verifyNoValue, ?respNoValue⟩
  case parse =>
    intro buf hlen
    exact exec_parse_append_congr hlen.ge x y s
  case verify =>
    intro cmd r0 r1 r2
    exact exec_verify_congr (verifyReply_congr_of_first_three cmd r0 r1 r2 x y) s
  case resp =>
    intro r0 r1 r2
    exact exec_resp_congr (verifyReply_congr_of_first_three s.slot.command r0 r1 r2 x y)
  case verifyNoValue =>
    intro cmd r0 hvalue
    exact exec_verify_congr (verifyReply_congr_of_value_none hvalue r0 x y) s
  case respNoValue =>
    intro r0 hval
    exact exec_resp_congr (verifyReply_congr_of_value_none (Slot.command_value_of_not_hasVal hval) r0 x y)

end Sys2Proof.Machine
end

section
/-! PROOFS. Byte fields as bit slices (spec 30_encoding.md R62, R65): a value and its two bytes are inverse, and `PARSE`
reads a 120-bit number's own bit slices. -/

namespace Sys2Proof.Machine

/- ### The 16-bit value of two bytes -/

@[simp] theorem lowByte_decU_two (lo hi : Byte) : lowByte (decU (.two lo hi)) = lo := by
  apply BitVec.eq_of_toNat_eq
  rw [lowByte_toNat, decU_two]
  omega

@[simp] theorem highByte_decU_two (lo hi : Byte) : highByte (decU (.two lo hi)) = hi := by
  apply BitVec.eq_of_toNat_eq
  rw [highByte_toNat, decU_two]
  omega

/-- Settles O7: byte by byte one way, by `decU_split` the other. -/
theorem assemblyInvertsSplit : Obligations.AssemblyInvertsSplit := by
  unfold Obligations.AssemblyInvertsSplit
  refine ⟨fun lo hi => ⟨?assembly, ?bound, lowByte_decU_two lo hi, highByte_decU_two lo hi⟩,
    fun v hv => ⟨lowByte_toNat v, ?high, decU_split (Nat.lt_succ_of_le hv)⟩, decU_one⟩
  case assembly =>
    rw [decU_two]
    omega
  case bound => exact Nat.le_of_lt_succ (decU_two_lt lo hi)
  case high =>
    rw [highByte_toNat]
    omega

/- ### The telemetry frame of a 120-bit number -/

/-- Byte `i` of a number, its bits `[8i+7 : 8i]` (R62). -/
def byteAt (n i : Nat) : Byte := BitVec.ofNat 8 (n / 2 ^ (8 * i))

/-- The 15-byte buffer of a number, index 0 its low-order byte (R62). -/
def telemetryBytes (n : Nat) : List Byte := (List.range 15).map (byteAt n)

/-- The 16 bits of a number from bit `k` on. -/
def slice16 (n k : Nat) : Nat := n / 2 ^ k % 2 ^ 16

/-- The 16 bits of a number from bit `k` on, in two's complement (R62, field `F4`). -/
def signedSlice16 (n k : Nat) : Int :=
  if n.testBit (k + 15) then (slice16 n k : Int) - 2 ^ 16 else slice16 n k

/-- The fields the bit table of R62 gives a 120-bit number. -/
def telemetryFields (n : Nat) : TelemetryFrame where
  f0 := (n % 2 ^ 16 : Nat)
  f1 := slice16 n 16
  f2 := slice16 n 32
  f3 := slice16 n 48
  f4 := signedSlice16 n 64
  f5 := slice16 n 80
  f6 := slice16 n 96
  f7 := (n / 2 ^ 112 : Nat)

@[simp] theorem byteAt_toNat (n i : Nat) : (byteAt n i).toNat = n / 2 ^ (8 * i) % 256 :=
  BitVec.toNat_ofNat _ _

theorem telemetryBytes_eq (n : Nat) :
    telemetryBytes n =
      [byteAt n 0, byteAt n 1, byteAt n 2, byteAt n 3, byteAt n 4, byteAt n 5, byteAt n 6, byteAt n 7, byteAt n 8,
        byteAt n 9, byteAt n 10, byteAt n 11, byteAt n 12, byteAt n 13, byteAt n 14] :=
  rfl

theorem slice16_zero (n : Nat) : slice16 n 0 = n % 2 ^ 16 := by
  rw [slice16, Nat.pow_zero, Nat.div_one]

theorem slice16_lt (n k : Nat) : slice16 n k < 2 ^ 16 :=
  Nat.mod_lt _ (Nat.two_pow_pos 16)

/-- Two neighbouring bytes assemble to the bit slice that holds them. -/
theorem decU_byteAt (n i : Nat) : decU (.two (byteAt n i) (byteAt n (i + 1))) = slice16 n (8 * i) := by
  have hnext : n / 2 ^ (8 * (i + 1)) = n / 2 ^ (8 * i) / 256 := by
    rw [Nat.div_div_eq_div_mul, Nat.mul_add, Nat.pow_add]
  rw [decU_two, byteAt_toNat, byteAt_toNat, hnext, slice16]
  omega

/-- The sign bit that `DECS` tests on two neighbouring bytes is the top bit of their slice. -/
theorem decS_byteAt (n i : Nat) : decS (.two (byteAt n i) (byteAt n (i + 1))) = signedSlice16 n (8 * i) := by
  have htop : (slice16 n (8 * i)).testBit 15 = n.testBit (8 * i + 15) := by
    rw [slice16, Nat.testBit_mod_two_pow, Nat.testBit_div_two_pow, Nat.add_comm]
    simp
  have hmask : slice16 n (8 * i) &&& (2 ^ 16 - 1) = slice16 n (8 * i) :=
    Nat.and_two_pow_sub_one_of_lt_two_pow (slice16_lt n (8 * i))
  simp only [decS, decU_byteAt, sliceWidth, htop, hmask, signedSlice16]
  split
  · push_cast
    omega
  · rfl

/-- The bound makes the byte at index 14 the whole of the number from bit 112 on. -/
theorem readTelemetry_telemetryBytes {n : Nat} (h : n < 2 ^ 120) :
    readTelemetry (telemetryBytes n) = .next (telemetryFields n) := by
  have unsigned (i : Nat) :
      (((byteAt n i).toNat + 256 * (byteAt n (i + 1)).toNat : Nat) : Int) = slice16 n (8 * i) := by
    rw [← decU_two, decU_byteAt]
  have last : ((byteAt n 14).toNat : Int) = (n / 2 ^ 112 : Nat) := by
    rw [byteAt_toNat, Nat.mod_eq_of_lt (by omega)]
  rw [telemetryBytes_eq, readTelemetry_cons]
  exact congrArg Host.Outcome.next (TelemetryFrame.ext ((unsigned 0).trans (congrArg Nat.cast (slice16_zero n)))
    (unsigned 2) (unsigned 4) (unsigned 6) (decS_byteAt n 8) (unsigned 10) (unsigned 12) last)

theorem exec_parse_telemetryBytes {n : Nat} (h : n < 2 ^ 120) (s : State) :
    exec (.parse (telemetryBytes n)) s = .next (s.deliver (.telemetry (telemetryFields n))) := by
  show execParse (telemetryBytes n) s = _
  rw [execParse_long (by simp [telemetryBytes]), readTelemetry_telemetryBytes h, andThen_next]

/-- A two's-complement reading determines its bits: one that subtracts is negative, one that does not is not. -/
theorem slice16_eq_of_signed {m n k : Nat} (h : signedSlice16 m k = signedSlice16 n k) :
    slice16 m k = slice16 n k := by
  have hm := slice16_lt m k
  have hn := slice16_lt n k
  unfold signedSlice16 at h
  split at h <;> split at h <;> omega

/-- The slices cover every bit of the number, so `omega` puts it together from them. -/
theorem telemetryFields_injective : Function.Injective telemetryFields := by
  intro m n h
  simp only [telemetryFields, TelemetryFrame.mk.injEq, Nat.cast_inj] at h
  obtain ⟨h0, h1, h2, h3, h4, h5, h6, h7⟩ := h
  replace h4 := slice16_eq_of_signed h4
  simp only [slice16] at *
  omega

/-- Settles O14: the parser's reads are the bit slices, and the slices determine the number. -/
theorem telemetryBitsAreFields : Obligations.TelemetryBitsAreFields := by
  unfold Obligations.TelemetryBitsAreFields
  intro s n hn
  refine ⟨exec_parse_telemetryBytes hn s, fun m hm h => telemetryFields_injective ?_⟩
  have hnext := (exec_parse_telemetryBytes hm s).symm.trans (h.trans (exec_parse_telemetryBytes hn s))
  simpa [State.deliver] using hnext

end Sys2Proof.Machine
end

section
/-! PROOFS. The integer decoder (spec 40_integer_decoder.md R90, R93, R96, R98): `decodeUnsigned` and `decodeSigned` of a
slice's bytes deliver its two readings, any other length is refused, and the four operations do nothing but deliver. -/

namespace Sys2Proof.Machine

/- ### A step on a presented request -/

theorem step_request_ok {r : Request} {i : Instr} (hd : decode r = .ok i) (s : State) (rest : List Event) :
    step { s with pending := .request r :: rest } = exec i { s with pending := rest } :=
  takeEvent_instr rfl hd _ _ _ _

theorem step_request_error {r : Request} {e : Rejection} (hd : decode r = .error e) (s : State) (rest : List Event) :
    step { s with pending := .request r :: rest } = .refused (refusalOf e) :=
  takeEvent_reject rfl hd _ _ _ _

/- ### The byte sequences in the contract -/

/-- The bytes of a slice, index 0 first: the operand of `decodeUnsigned` and `decodeSigned` (R75). -/
def sliceBytes : Slice → List Byte
  | .one b0 => [b0]
  | .two b0 b1 => [b0, b1]

theorem step_decodeUnsigned (b : Slice) (s : State) (rest : List Event) :
    step { s with pending := .request (.decodeUnsigned (sliceBytes b)) :: rest } =
      .next (State.deliver { s with pending := rest } (.integer (decU b))) := by
  cases b with
  | one b0 => exact step_request_ok (i := .decU8 b0) rfl s rest
  | two b0 b1 => exact step_request_ok (i := .decU16 b0 b1) rfl s rest

theorem step_decodeSigned (b : Slice) (s : State) (rest : List Event) :
    step { s with pending := .request (.decodeSigned (sliceBytes b)) :: rest } =
      .next (State.deliver { s with pending := rest } (.integer (decS b))) := by
  cases b with
  | one b0 => exact step_request_ok (i := .decS8 b0) rfl s rest
  | two b0 b1 => exact step_request_ok (i := .decS16 b0 b1) rfl s rest

/- ### The two readings of a slice -/

/-- The little-endian sum as R90 writes it. -/
theorem decU_two_eq_add_mul_pow (b0 b1 : Byte) : decU (.two b0 b1) = b0.toNat + b1.toNat * 2 ^ 8 := by
  rw [decU_two]
  omega

theorem decU_lt_two_pow (b : Slice) : decU b < 2 ^ sliceWidth b := by
  cases b with
  | one b0 => exact b0.isLt
  | two b0 b1 => exact decU_two_lt b0 b1

/-- The mask of R93 keeps the whole unsigned value, so the sign bit decides between it and it minus `2 ^ width`. -/
theorem decS_eq_of_signBit (b : Slice) :
    decS b =
      if (decU b).testBit (sliceWidth b - 1) then -2 ^ sliceWidth b + (decU b : Int) else (decU b : Int) := by
  simp only [decS, Nat.and_two_pow_sub_one_of_lt_two_pow (decU_lt_two_pow b), Nat.cast_pow, Nat.cast_ofNat]

theorem decS_mem_range (b : Slice) :
    -2 ^ (sliceWidth b - 1) ≤ decS b ∧ decS b ≤ 2 ^ (sliceWidth b - 1) - 1 := by
  have hlt := decU_lt_two_pow b
  have hhalf : 2 ^ sliceWidth b = 2 * 2 ^ (sliceWidth b - 1) := by cases b <;> rfl
  rw [decS_eq]
  constructor <;> split <;> linarith

/-- Settles O1: the step delivers `decU` of the bytes, which is their little-endian sum. -/
theorem decodeUnsignedIsLittleEndian : Obligations.DecodeUnsignedIsLittleEndian := by
  unfold Obligations.DecodeUnsignedIsLittleEndian
  intro s rest b0 b1
  rw [← decU_two_eq_add_mul_pow]
  exact ⟨step_decodeUnsigned (.one b0) s rest, step_decodeUnsigned (.two b0 b1) s rest,
    decU_lt_two_pow (.one b0), decU_lt_two_pow (.two b0 b1)⟩

/-- Settles O2: the step delivers `decS` of the bytes, which the sign bit decides. -/
theorem decodeSignedIsTwosComplement : Obligations.DecodeSignedIsTwosComplement := by
  unfold Obligations.DecodeSignedIsTwosComplement
  refine ⟨?oneByte, ?twoBytes, by decide, by decide, decS_mem_range⟩
  case oneByte =>
    intro s rest b0
    exact decS_eq_of_signBit (.one b0) ▸ step_decodeSigned (.one b0) s rest
  case twoBytes =>
    intro s rest b0 b1 u hu
    rw [hu, ← decU_two_eq_add_mul_pow]
    exact decS_eq_of_signBit (.two b0 b1) ▸ step_decodeSigned (.two b0 b1) s rest

/- ### The byte sequences outside the contract -/

theorem decode_of_other_length {bytes : List Byte} (h1 : bytes.length ≠ 1) (h2 : bytes.length ≠ 2) :
    decode (.decodeUnsigned bytes) = .error .badFieldLength ∧
      decode (.decodeSigned bytes) = .error .badFieldLength := by
  match bytes with
  | [] => exact ⟨rfl, rfl⟩
  | [_] => exact absurd rfl h1
  | [_, _] => exact absurd rfl h2
  | _ :: _ :: _ :: _ => exact ⟨rfl, rfl⟩

/- ### The four operations -/

/-- Settles O6: each operation delivers a reading of its operand bytes, in which the state does not occur. -/
theorem decodesAreTotalAndPure : Obligations.DecodesAreTotalAndPure := by
  unfold Obligations.DecodesAreTotalAndPure
  intro b0 b1 i hi
  simp only [List.mem_cons, List.not_mem_nil, or_false] at hi
  obtain rfl | rfl | rfl | rfl := hi
  · exact ⟨decU (.one b0), fun _ => rfl⟩
  · exact ⟨decU (.two b0 b1), fun _ => rfl⟩
  · exact ⟨decS (.one b0), fun _ => rfl⟩
  · exact ⟨decS (.two b0 b1), fun _ => rfl⟩

/-- Settles O3: the decoder rejects every other length; that the four operations deliver is `decodesAreTotalAndPure`. -/
theorem otherFieldLengthsAreRefused : Obligations.OtherFieldLengthsAreRefused := by
  unfold Obligations.OtherFieldLengthsAreRefused
  refine ⟨?refused, ?delivers⟩
  case refused =>
    intro s rest bytes h1 h2
    obtain ⟨hunsigned, hsigned⟩ := decode_of_other_length h1 h2
    exact ⟨step_request_error hunsigned s rest, step_request_error hsigned s rest⟩
  case delivers =>
    intro s b0 b1 i hi
    obtain ⟨n, hn⟩ := decodesAreTotalAndPure b0 b1 i hi
    exact ⟨n, hn s⟩

end Sys2Proof.Machine
end

section
/-! PROOFS. The frame parser (spec 41_frame_parser.md R110 to R114): the length alone decides between `FrameTooShort` and
a telemetry frame, and each field of the frame is read from its own bytes. -/

namespace Sys2Proof.Machine

/- ### The fields of a parsed buffer -/

theorem memRead1_congr {buf buf' : List Byte} {off : Nat} (h : buf[off]? = buf'[off]?) :
    memRead1 buf off = memRead1 buf' off := by
  rw [memRead1, h, memRead1]

theorem memRead2_congr {buf buf' : List Byte} {off : Nat} (h0 : buf[off]? = buf'[off]?)
    (h1 : buf[off + 1]? = buf'[off + 1]?) : memRead2 buf off = memRead2 buf' off := by
  rw [memRead2, h0, h1, memRead2]

/-- Two fields of two bytes, at one offset and with one decoder, are equal when their bytes are. -/
theorem twoByteField_unique {buf buf' : List Byte} {off : Nat} {x x' : Int} {decoder : Slice → Int}
    (h : andThen (memRead2 buf off) (fun b => .next (decoder b)) = .next x)
    (h' : andThen (memRead2 buf' off) (fun b => .next (decoder b)) = .next x')
    (h0 : buf[off]? = buf'[off]?) (h1 : buf[off + 1]? = buf'[off + 1]?) : x = x' := by
  rw [memRead2_congr h0 h1] at h
  exact Host.Outcome.next.inj (h.symm.trans h')

/-- Two fields of one byte at one offset are equal when the byte is. -/
theorem fieldU8_unique {buf buf' : List Byte} {off : Nat} {x x' : Int} (h : fieldU8 buf off = .next x)
    (h' : fieldU8 buf' off = .next x') (h0 : buf[off]? = buf'[off]?) : x = x' := by
  rw [fieldU8, memRead1_congr h0] at h
  exact Host.Outcome.next.inj (h.symm.trans h')

/-- The parser's reads give a frame exactly when each of its fields is the decode at that field's offset (R48). -/
theorem readTelemetry_eq_next {buf : List Byte} {f : TelemetryFrame} :
    readTelemetry buf = .next f ↔
      fieldU16 buf 0 = .next f.f0 ∧ fieldU16 buf 2 = .next f.f1 ∧ fieldU16 buf 4 = .next f.f2 ∧
      fieldU16 buf 6 = .next f.f3 ∧ fieldS16 buf 8 = .next f.f4 ∧ fieldU16 buf 10 = .next f.f5 ∧
      fieldU16 buf 12 = .next f.f6 ∧ fieldU8 buf 14 = .next f.f7 := by
  simp only [readTelemetry, andThen_eq_next]
  constructor
  · rintro ⟨f0, h0, f1, h1, f2, h2, f3, h3, f4, h4, f5, h5, f6, h6, f7, h7, ⟨⟩⟩
    exact ⟨h0, h1, h2, h3, h4, h5, h6, h7⟩
  · rintro ⟨h0, h1, h2, h3, h4, h5, h6, h7⟩
    exact ⟨_, h0, _, h1, _, h2, _, h3, _, h4, _, h5, _, h6, _, h7, rfl⟩

/- ### The outcome of `PARSE` by the buffer's length -/

theorem State.deliver_injective (s : State) : Function.Injective s.deliver := by
  intro r r' h
  have hdelivered : s.delivered ++ [r] = s.delivered ++ [r'] := congrArg State.delivered h
  simpa using hdelivered

theorem exec_parse_of_short {buf : List Byte} (h : buf.length < 15) (s : State) :
    exec (.parse buf) s = .next (s.deliver .frameTooShort) :=
  execParse_short h s

theorem exec_parse_of_readTelemetry {buf : List Byte} {f : TelemetryFrame} (h : 15 ≤ buf.length)
    (hf : readTelemetry buf = .next f) (s : State) :
    exec (.parse buf) s = .next (s.deliver (.telemetry f)) := by
  show execParse buf s = _
  rw [execParse_long h, hf, andThen_next]

/-- One frame for the buffer, whatever the state. -/
theorem exec_parse_of_long {buf : List Byte} (h : 15 ≤ buf.length) :
    ∃ f, ∀ s : State, exec (.parse buf) s = .next (s.deliver (.telemetry f)) := by
  obtain ⟨b0, b1, b2, b3, b4, b5, b6, b7, b8, b9, b10, b11, b12, b13, b14, surplus, rfl⟩ := exists_fifteen h
  exact ⟨_, exec_parse_of_readTelemetry h (readTelemetry_cons ..)⟩

/-- One result for the buffer, whatever the state. -/
theorem exec_parse_result (buf : List Byte) :
    ∃ r, ∀ s : State, exec (.parse buf) s = .next (s.deliver r) := by
  by_cases h : buf.length < 15
  · exact ⟨_, exec_parse_of_short h⟩
  · obtain ⟨f, hf⟩ := exec_parse_of_long (Nat.le_of_not_lt h)
    exact ⟨_, hf⟩

/-- A delivered frame is the one the parser's reads give. -/
theorem readTelemetry_of_exec_parse {buf : List Byte} {f : TelemetryFrame} {s : State}
    (h : exec (.parse buf) s = .next (s.deliver (.telemetry f))) : readTelemetry buf = .next f := by
  by_cases hlen : buf.length < 15
  · rw [exec_parse_of_short hlen] at h
    cases s.deliver_injective (Host.Outcome.next.inj h)
  · have hexec : execParse buf s = .next (s.deliver (.telemetry f)) := h
    rw [execParse_long (Nat.le_of_not_lt hlen), andThen_eq_next] at hexec
    obtain ⟨g, hg, hnext⟩ := hexec
    cases s.deliver_injective (Host.Outcome.next.inj hnext)
    exact hg

theorem exec_parse_take {buf : List Byte} (h : 15 ≤ buf.length) (s : State) :
    exec (.parse buf) s = exec (.parse (buf.take 15)) s := by
  have hsurplus := exec_parse_append_congr (buf := buf.take 15) (List.length_take_of_le h).ge (buf.drop 15) [] s
  rwa [List.take_append_drop, List.append_nil] at hsurplus

/- ### The obligations -/

/-- Settles O9: a delivered frame holds the eight decodes, and each decode is a function of its own bytes. -/
theorem parseFieldsAreIndependent : Obligations.ParseFieldsAreIndependent := by
  unfold Obligations.ParseFieldsAreIndependent
  intro s buf buf' f f' h h'
  obtain ⟨h0, h1, h2, h3, h4, h5, h6, h7⟩ := readTelemetry_eq_next.mp (readTelemetry_of_exec_parse h)
  obtain ⟨h0', h1', h2', h3', h4', h5', h6', h7'⟩ := readTelemetry_eq_next.mp (readTelemetry_of_exec_parse h')
  exact ⟨twoByteField_unique h0 h0', twoByteField_unique h1 h1', twoByteField_unique h2 h2',
    twoByteField_unique h3 h3', twoByteField_unique h4 h4', twoByteField_unique h5 h5', twoByteField_unique h6 h6',
    fieldU8_unique h7 h7'⟩

/-- Settles O11: the bytes from index 15 on are the surplus of `exec_parse_append_congr`. -/
theorem parseIgnoresSurplusBytes : Obligations.ParseIgnoresSurplusBytes := by
  unfold Obligations.ParseIgnoresSurplusBytes
  intro s buf h
  obtain ⟨f, hf⟩ := exec_parse_of_long h
  exact ⟨exec_parse_take h s, f, hf s⟩

/-- Settles O12: two short buffers with equal first 15 bytes are the same buffer, two long ones parse as those bytes. -/
theorem parseIsPure : Obligations.ParseIsPure := by
  unfold Obligations.ParseIsPure
  intro buf
  refine ⟨?oneResult, ?firstFifteen⟩
  case oneResult =>
    obtain ⟨r, hr⟩ := exec_parse_result buf
    exact ⟨r, fun s => ⟨hr s, hr (s.deliver r)⟩⟩
  case firstFifteen =>
    intro buf' s htake hlen
    by_cases h : buf.length < 15
    · rw [List.take_of_length_le h.le, List.take_of_length_le (hlen ▸ h.le)] at htake
      rw [htake]
    · have hlong : 15 ≤ buf.length := Nat.le_of_not_lt h
      rw [exec_parse_take hlong, htake, ← exec_parse_take (hlen ▸ hlong)]

/-- Settles O8: the buffer port is the operand; the reads of fifteen bytes are `readTelemetry_cons`. -/
theorem parseReadsEightFields : Obligations.ParseReadsEightFields := by
  unfold Obligations.ParseReadsEightFields
  refine ⟨fun p => ⟨p.rx, rfl⟩, fun buf => ⟨{ Ports.zeros with rx := buf }, rfl⟩,
    fun s buf h => exec_parse_of_short h s, ?fields⟩
  case fields =>
    intro s b0 b1 b2 b3 b4 b5 b6 b7 b8 b9 b10 b11 b12 b13 b14 surplus
    rw [← decS_two]
    exact exec_parse_of_readTelemetry (by simp) (readTelemetry_cons ..) s

/-- Settles O10: the two cases of the length check. -/
theorem parseChecksLengthOnly : Obligations.ParseChecksLengthOnly := by
  unfold Obligations.ParseChecksLengthOnly
  intro s buf
  refine ⟨fun h => exec_parse_of_short h s, fun h => ?telemetry⟩
  case telemetry =>
    obtain ⟨f, hf⟩ := exec_parse_of_long h
    exact ⟨f, hf s⟩

end Sys2Proof.Machine
end

section
/-! PROOFS. The command encoder (spec 42_command_encoder.md R130, R131, R133, R141): the frame `ENC` builds in contract,
its value bytes as a split of the value, and that every command frame handed over is one the encoder built. -/

namespace Sys2Proof.Machine

/- ### The frame of `ENC` -/

theorem lowByte_eq_ofNat_mod (v : Nat) : lowByte v = BitVec.ofNat 8 (v % 256) := by
  apply BitVec.eq_of_toNat_eq
  rw [lowByte_toNat, BitVec.toNat_ofNat, Nat.mod_mod]

theorem highByte_eq_ofNat_div (v : Nat) : highByte v = BitVec.ofNat 8 (v / 256) := by
  apply BitVec.eq_of_toNat_eq
  rw [highByte_toNat, BitVec.toNat_ofNat]

theorem highByte_toNat_of_le {v : Nat} (h : v ≤ 65535) : (highByte v).toNat = v / 256 := by
  rw [highByte_toNat]
  omega

/-- The frame as R130 writes it: a 16-bit value loses nothing in the split, so its two parts are summed. -/
theorem encodeFrame_of_le (op : Byte) {v : Nat} (h : v ≤ 65535) :
    encodeFrame op v =
      { opcode := op, valueLow := BitVec.ofNat 8 (v % 256), valueHigh := BitVec.ofNat 8 (v / 256)
        checksum := BitVec.ofNat 8 ((op.toNat + v % 256 + v / 256) % 256) } := by
  rw [encodeFrame_eq, lowByte_toNat, highByte_toNat_of_le h, lowByte_eq_ofNat_mod, highByte_eq_ofNat_div]

/-- `ENC` of an ASCII opcode completes on every value that is not negative. -/
theorem exec_enc_of_ascii {op : Byte} (h : op.toNat ≤ 0x7F) (v : Nat) (s : State) :
    exec (.enc op (some v)) s = .next (s.deliver (.commandFrame (encodeFrame op v))) :=
  execEnc_eq_next.mpr ⟨isAscii_iff.mpr h, decide_eq_true (Int.natCast_nonneg v), rfl⟩

/-- Settles O15: the opcode and value ports are the operands; the frame is `encodeFrame_of_le`. -/
theorem encBuildsFrame : Obligations.EncBuildsFrame := by
  unfold Obligations.EncBuildsFrame
  refine ⟨fun p => ⟨p.opcode, p.value, rfl⟩,
    fun opcode value => ⟨{ Ports.zeros with opcode := opcode, value := value }, rfl⟩, ?frame⟩
  case frame =>
    intro s opcode value hop hvalue
    rw [exec_enc_of_ascii hop, encodeFrame_of_le opcode hvalue]
    rfl

/-- Settles O21: `encBuildsFrame` for the opcode 0x65 and a value that is 16 bits wide. -/
theorem setReferenceFrame : Obligations.SetReferenceFrame := by
  unfold Obligations.SetReferenceFrame
  obtain ⟨-, -, hframe⟩ := encBuildsFrame
  exact ⟨fun s v => hframe s 0x65 v.toNat (by decide) (Nat.le_of_lt_succ v.isLt),
    fun s => hframe s 0x65 300 (by decide) (by decide)⟩

/-- Settles O17: `DECU16` of the two bytes of a split value is `decU_split`. -/
theorem encValueRoundTrips : Obligations.EncValueRoundTrips := by
  unfold Obligations.EncValueRoundTrips
  intro s opcode value hop hvalue
  refine ⟨encodeFrame opcode value, exec_enc_of_ascii hop value s, lowByte_toNat value, highByte_toNat_of_le hvalue,
    ?decoded⟩
  case decoded =>
    show execDecU16 (lowByte value) (highByte value) s = _
    rw [execDecU16, decU_split (Nat.lt_succ_of_le hvalue)]
    rfl

/- ### Every frame handed over is the encoder's -/

/-- A command frame that an answer adds to what `s` had delivered is one the encoder's algorithm (R130) built. -/
def DeliversEncodedFrames (s : State) (a : Answer State) : Prop :=
  ∀ t f, a = .next t → t.delivered = s.delivered ++ [.commandFrame f] → ∃ op v, f = encodeFrame op v

namespace DeliversEncodedFrames

variable {s t : State}

/-- Delivering nothing delivers no frame. -/
theorem of_delivered_eq (h : t.delivered = s.delivered) : DeliversEncodedFrames s (.next t) := by
  rintro _ f ⟨⟩ hf
  simp [h] at hf

theorem of_delivers {r : Result} (ht : t.delivered = s.delivered ++ [r])
    (hr : ∀ f, r = .commandFrame f → ∃ op v, f = encodeFrame op v) : DeliversEncodedFrames s (.next t) := by
  rintro _ f ⟨⟩ hf
  exact hr f (by simpa [ht] using hf)

theorem of_deliverFrame (op : Byte) (v : Nat) : DeliversEncodedFrames s (deliverFrame op v s) :=
  of_delivers rfl fun _ h => ⟨op, v, (Result.commandFrame.inj h).symm⟩

theorem of_require {c : Bool} {e : Refusal} {a : Answer State} (h : DeliversEncodedFrames s a) :
    DeliversEncodedFrames s (require c e a) :=
  fun t f ha => h t f (require_eq_next.mp ha).2

theorem of_andThen {α : Type} {a : Answer α} {g : α → Answer State} (h : ∀ x, DeliversEncodedFrames s (g x)) :
    DeliversEncodedFrames s (andThen a g) := by
  intro t f ha
  obtain ⟨x, -, hx⟩ := andThen_eq_next.mp ha
  exact h x t f hx

theorem of_execParse (buf : List Byte) : DeliversEncodedFrames s (execParse buf s) := by
  by_cases h : buf.length < 15
  · rw [execParse_short h]
    exact of_delivers rfl nofun
  · rw [execParse_long (Nat.le_of_not_lt h)]
    exact of_andThen fun _ => of_delivers rfl nofun

theorem of_execAbandon : DeliversEncodedFrames s (execAbandon s) := by
  refine of_delivered_eq ?_
  split <;> rfl

/-- No operation builds a frame in another way: the encoder's rows go through `deliverFrame`, the others deliver
something else or nothing. -/
theorem of_exec (i : Instr) (s : State) : DeliversEncodedFrames s (exec i s) := by
  cases i with
  | decU8 | decU16 | decS8 | decS16 => exact of_delivers rfl nofun
  | parse buf => exact of_execParse buf
  | enc op value => exact of_require (of_require (of_deliverFrame op _))
  | verify => exact of_require (of_andThen fun _ => of_delivers rfl nofun)
  | arm cmd => exact of_require (of_require (of_delivered_eq (State.recordCommand_delivered s cmd)))
  | resp => exact of_require (of_andThen fun _ => of_delivers rfl nofun)
  | abandon => exact of_execAbandon
  | cmdA | cmdG | cmdX | cmdE => exact of_deliverFrame _ _
  | cmd op => exact of_require (of_deliverFrame op _)

end DeliversEncodedFrames

/-- Settles O16: the frame is the encoder's, which sums the bytes it has stored. -/
theorem checksumSumsStoredBytes : Obligations.ChecksumSumsStoredBytes := by
  unfold Obligations.ChecksumSumsStoredBytes
  intro i s t f hexec hdelivered
  obtain ⟨op, v, rfl⟩ := DeliversEncodedFrames.of_exec i s t f hexec hdelivered
  exact encodeFrame_checksum op v

end Sys2Proof.Machine
end

section
/-! PROOFS. The response verifier (spec 43_response_verifier.md R152, R153, R155, R165): `VERIFY` and `RESP` answer as the
transition rule does, and that rule answers `Matched` exactly when the reply begins with the command. -/

namespace Sys2Proof.Machine

/- ### `VERIFY` and `RESP` by the transition rule -/

theorem exec_verify_of_ascii {cmd : Command} (h : cmd.op.toNat ≤ 0x7F) (resp : List Byte) (s : State) :
    exec (.verify cmd resp) s =
      andThen (verifyReply cmd resp) fun r => .next (s.deliver (.verification r)) := by
  show execVerify cmd resp s = _
  rw [execVerify, isAscii_iff.mpr h, require_true]

/-- The delivery determines the verdict, so `VERIFY` delivers a verdict exactly when the transition rule answers it. -/
theorem exec_verify_eq_deliver_iff {cmd : Command} (h : cmd.op.toNat ≤ 0x7F) {resp : List Byte} {s : State}
    {r : VerificationResult} :
    exec (.verify cmd resp) s = .next (s.deliver (.verification r)) ↔ verifyReply cmd resp = .next r := by
  simp [exec_verify_of_ascii h, andThen_eq_next, s.deliver_injective.eq_iff]

theorem exec_verify_of_short {cmd : Command} {resp : List Byte} (h : cmd.op.toNat ≤ 0x7F)
    (hshort : replyLongEnough cmd resp = false) (s : State) :
    exec (.verify cmd resp) s = .refused .shortResponse := by
  rw [exec_verify_of_ascii h, verifyReply_short hshort, andThen_refused]

theorem exec_resp_of_verifyReply {s : State} {buf : List Byte} {r : VerificationResult}
    (h : s.slot.vState = .awaitingResponse) (hr : verifyReply s.slot.command buf = .next r) :
    exec (.resp buf) s = .next ((s.setVState (resultTag r)).deliver (.verification r)) := by
  show execResp buf s = _
  rw [execResp, decide_eq_true h, require_true, hr, andThen_next]

/- ### Replies that are too short -/

theorem replyLongEnough_nil (cmd : Command) : replyLongEnough cmd [] = false := by
  obtain ⟨op, _ | v⟩ := cmd <;> rfl

theorem replyLongEnough_some_of_lt {op : Byte} {v : Half} {resp : List Byte} (h : resp.length < 3) :
    replyLongEnough { op := op, value := some v } resp = false :=
  decide_eq_false (Nat.not_le_of_lt h)

/- ### `Matched` -/

/-- The reply begins with the command: its opcode and, when it has a value, that value low byte first (R155). -/
def BeginsWith (resp : List Byte) (cmd : Command) : Prop :=
  resp[0]? = some cmd.op ∧
  ∀ v, cmd.value = some v →
    ∃ r1 r2 : Byte, resp[1]? = some r1 ∧ resp[2]? = some r2 ∧ r1.toNat + 256 * r2.toNat = v.toNat

/-- A reply that begins with the command has every byte the transition rule reads. -/
theorem BeginsWith.replyLongEnough {resp : List Byte} {cmd : Command} (h : BeginsWith resp cmd) :
    replyLongEnough cmd resp = true := by
  obtain ⟨hop, hvalue⟩ := h
  rw [replyLongEnough_iff]
  obtain ⟨op, _ | v⟩ := cmd
  · exact (List.getElem?_eq_some_iff.mp hop).1
  · obtain ⟨-, r2, -, h2, -⟩ := hvalue v rfl
    exact (List.getElem?_eq_some_iff.mp h2).1

theorem beginsWith_none {op r0 : Byte} {rest : List Byte} :
    BeginsWith (r0 :: rest) { op := op, value := none } ↔ r0 = op := by
  simp [BeginsWith]

theorem beginsWith_some {op r0 r1 r2 : Byte} {v : Half} {rest : List Byte} :
    BeginsWith (r0 :: r1 :: r2 :: rest) { op := op, value := some v } ↔
      r0 = op ∧ r1.toNat + 256 * r2.toNat = v.toNat := by
  simp [BeginsWith]

/-- On a long enough reply the two comparisons decide; on a shorter one neither side holds. -/
theorem verifyReply_eq_matched_iff {cmd : Command} {resp : List Byte} :
    verifyReply cmd resp = .next .matched ↔ BeginsWith resp cmd := by
  by_cases hlong : replyLongEnough cmd resp = true
  case neg => exact ⟨fun h => absurd (verifyReply_eq_next h) hlong, fun h => absurd h.replyLongEnough hlong⟩
  case pos =>
    obtain ⟨op, r0, rest, rfl, rfl⟩ | ⟨op, v, r0, r1, r2, rest, rfl, rfl⟩ := longReply_cases hlong
    · rw [verifyReply_none, beginsWith_none]
      by_cases h0 : r0 = op <;> simp [h0]
    · rw [verifyReply_some, beginsWith_some]
      by_cases h0 : r0 = op
      · by_cases hv : r1.toNat + 256 * r2.toNat = v.toNat <;> simp [h0, hv]
      · simp [h0]

/-- The recorded command's value, when it has one, is `V_VAL` (R27). -/
theorem Slot.vVal_eq_of_command_value {slot : Slot} {v : Half} (h : slot.command.value = some v) : slot.vVal = v := by
  simp only [Slot.command, Option.ite_none_right_eq_some, Option.some.injEq] at h
  exact h.2

/- ### The obligations -/

/-- Settles O27: `VERIFY` delivers `Matched` when the transition rule answers it, and that is `BeginsWith`. -/
theorem verifyIsExactEquality : Obligations.VerifyIsExactEquality := by
  unfold Obligations.VerifyIsExactEquality
  intro s cmd resp hop
  exact (exec_verify_eq_deliver_iff hop).trans verifyReply_eq_matched_iff

/-- Settles O25: the command and buffer ports are the operands; the answers are the transition rule's. -/
theorem verifyFollowsTransitionRule : Obligations.VerifyFollowsTransitionRule := by
  unfold Obligations.VerifyFollowsTransitionRule
  refine ⟨fun p => ⟨p.command, p.rx, rfl⟩, fun cmd resp => ⟨{ Ports.zeros with command := cmd, rx := resp }, rfl⟩,
    fun s op hop => ⟨?empty, ?short, ?noValue, ?value⟩⟩
  case empty =>
    intro value
    exact exec_verify_of_short hop (replyLongEnough_nil _) s
  case short =>
    intro v resp hlen
    exact exec_verify_of_short hop (replyLongEnough_some_of_lt hlen) s
  case noValue =>
    intro r0 rest
    exact (exec_verify_eq_deliver_iff hop).mpr (verifyReply_none op r0 rest)
  case value =>
    intro v r0 r1 r2 rest
    exact (exec_verify_eq_deliver_iff hop).mpr (verifyReply_some op r0 r1 r2 v rest)

/-- Settles O36: in both clauses the buffer begins with the recorded command. -/
theorem anyBufferThatBeginsRightMatches : Obligations.AnyBufferThatBeginsRightMatches := by
  unfold Obligations.AnyBufferThatBeginsRightMatches
  intro s rest hawaiting
  have hmatched {buf : List Byte} (h : BeginsWith buf s.slot.command) :=
    exec_resp_of_verifyReply hawaiting (verifyReply_eq_matched_iff.mpr h)
  refine ⟨fun hval => hmatched ⟨rfl, ?noValue⟩, fun r1 r2 hbytes => hmatched ⟨rfl, ?value⟩⟩
  case noValue =>
    intro v hv
    exact absurd ((Slot.command_value_of_not_hasVal hval).symm.trans hv) nofun
  case value =>
    intro v hv
    exact ⟨r1, r2, rfl, rfl, Slot.vVal_eq_of_command_value hv ▸ hbytes⟩

end Sys2Proof.Machine
end

section
/-! PROOFS. What each operation answers (spec 60_exceptions.md R184, D14; 10_state.md section 1): one equation per
operation and case, the result of a pure operation as a function of its operands, and the contract that decides
completion. -/

namespace Sys2Proof.Machine

/- ### Sequencing under a precondition -/

theorem andThen_require {α β : Type} (c : Bool) (e : Refusal) (a : Answer α) (f : α → Answer β) :
    andThen (require c e a) f = require c e (andThen a f) := by
  cases c <;> rfl

theorem andThen_assoc {α β γ : Type} (a : Answer α) (f : α → Answer β) (g : β → Answer γ) :
    andThen (andThen a f) g = andThen a fun x => andThen (f x) g := by
  cases a <;> rfl

theorem isAscii_eq_false_iff {op : Byte} : isAscii op = false ↔ 0x80 ≤ op.toNat := by
  rw [← Bool.not_eq_true, isAscii_iff, Nat.not_le, Nat.lt_iff_add_one_le]

/- ### Pure operations -/

/-- The answer of a pure operation, of which the state is no part (R20): the command-frame rows build their frame
(log 8), a broken precondition is its refusal (D14). -/
def pureResult : (i : Instr) → IsPure i → Answer Result
  | .decU8 b0, _ => .next (.integer (decU (.one b0)))
  | .decU16 b0 b1, _ => .next (.integer (decU (.two b0 b1)))
  | .decS8 b0, _ => .next (.integer (decS (.one b0)))
  | .decS16 b0 b1, _ => .next (.integer (decS (.two b0 b1)))
  | .parse buf, _ =>
    if buf.length < Config.telemetryLen then .next .frameTooShort
    else andThen (readTelemetry buf) fun f => .next (.telemetry f)
  | .enc opcode value, _ =>
    require (isAscii opcode) .nonAsciiOpcode <|
    require (nonNegative value) .negativeValue <|
    .next (.commandFrame (encodeFrame opcode (valueOperand value)))
  | .verify cmd resp, _ =>
    require (isAscii cmd.op) .nonAsciiOpcode <|
    andThen (verifyReply cmd resp) fun r => .next (.verification r)
  | .cmdA value, _ => .next (.commandFrame (encodeFrame Config.opcodeA value.toNat))
  | .cmdG value, _ => .next (.commandFrame (encodeFrame Config.opcodeG value.toNat))
  | .cmdX value, _ => .next (.commandFrame (encodeFrame Config.opcodeX value.toNat))
  | .cmdE value, _ => .next (.commandFrame (encodeFrame Config.opcodeE value.toNat))
  | .cmd op value, _ =>
    require (isAscii op) .nonAsciiOpcode <| .next (.commandFrame (encodeFrame op value.toNat))

/-- A pure operation delivers its result and does nothing else. -/
theorem exec_pure {i : Instr} (h : IsPure i) (s : State) :
    exec i s = andThen (pureResult i h) fun r => .next (s.deliver r) := by
  cases i with
  | decU8 | decU16 | decS8 | decS16 | cmdA | cmdG | cmdX | cmdE => rfl
  | parse buf =>
    show execParse buf s = _
    rw [execParse, pureResult]
    split
    · rfl
    · rw [andThen_assoc]
      rfl
  | enc op value =>
    rw [pureResult, andThen_require, andThen_require]
    rfl
  | verify cmd resp =>
    rw [pureResult, andThen_require, andThen_assoc]
    rfl
  | cmd op value =>
    rw [pureResult, andThen_require]
    rfl
  | arm | resp | abandon => exact h.elim

theorem exec_pure_eq_next {i : Instr} (h : IsPure i) {s t : State} :
    exec i s = .next t ↔ ∃ r, pureResult i h = .next r ∧ s.deliver r = t := by
  simp [exec_pure h, andThen_eq_next]

/-- Only `VERIFY` has a verdict for its result, the one of the transition rule. -/
theorem verify_of_pureResult_verification {i : Instr} {h : IsPure i} {r : VerificationResult}
    (hr : pureResult i h = .next (.verification r)) :
    ∃ cmd resp, i = .verify cmd resp ∧ verifyReply cmd resp = .next r := by
  cases i with
  | decU8 | decU16 | decS8 | decS16 | cmdA | cmdG | cmdX | cmdE => cases hr
  | parse buf =>
    rw [pureResult] at hr
    split at hr
    · cases hr
    · simp [andThen_eq_next] at hr
  | enc | cmd => simp [pureResult, require_eq_next] at hr
  | verify cmd resp =>
    simp only [pureResult, require_eq_next, andThen_eq_next, Host.Outcome.next.injEq, Result.verification.injEq,
      exists_eq_right] at hr
    exact ⟨cmd, resp, rfl, hr.2⟩
  | arm | resp | abandon => exact h.elim

/-- Only `PARSE` of a short buffer has `FrameTooShort` for its result. -/
theorem pureResult_eq_frameTooShort_iff {i : Instr} {h : IsPure i} :
    pureResult i h = .next .frameTooShort ↔ ∃ buf, i = .parse buf ∧ buf.length < 15 := by
  cases i with
  | decU8 | decU16 | decS8 | decS16 | cmdA | cmdG | cmdX | cmdE => simp [pureResult]
  | parse buf =>
    rw [pureResult]
    split <;> simp_all [andThen_eq_next, Config.telemetryLen]
  | enc | verify | cmd => simp [pureResult, require_eq_next, andThen_eq_next]
  | arm | resp | abandon => exact h.elim

/- ### Operations with a precondition -/

theorem exec_enc_of_negative {op : Byte} {value : Int} (h : isAscii op = true) (hneg : value < 0) (s : State) :
    exec (.enc op (some value)) s = .refused .negativeValue := by
  show execEnc op (some value) s = _
  rw [execEnc, h, require_true, show nonNegative (some value) = false from decide_eq_false (Int.not_le.mpr hneg),
    require_false]

theorem exec_enc_of_nonAscii {op : Byte} (h : isAscii op = false) (value : Option Int) (s : State) :
    exec (.enc op value) s = .refused .nonAsciiOpcode := by
  show execEnc op value s = _
  rw [execEnc, h, require_false]

theorem exec_cmd_of_ascii {op : Byte} (h : isAscii op = true) (value : Half) (s : State) :
    exec (.cmd op value) s = .next (s.deliver (.commandFrame (encodeFrame op value.toNat))) := by
  show execCmd op value s = _
  rw [execCmd, h, require_true, deliverFrame]

theorem exec_cmd_of_nonAscii {op : Byte} (h : isAscii op = false) (value : Half) (s : State) :
    exec (.cmd op value) s = .refused .nonAsciiOpcode := by
  show execCmd op value s = _
  rw [execCmd, h, require_false]

theorem exec_verify_of_nonAscii {cmd : Command} (h : isAscii cmd.op = false) (resp : List Byte) (s : State) :
    exec (.verify cmd resp) s = .refused .nonAsciiOpcode := by
  show execVerify cmd resp s = _
  rw [execVerify, h, require_false]

theorem exec_arm_of_outstanding {s : State} (h : s.slot.vState = .awaitingResponse) (cmd : Command) :
    exec (.arm cmd) s = .refused .commandOutstanding := by
  show execArm cmd s = _
  rw [execArm, decide_eq_false (not_not_intro h), require_false]

theorem exec_arm_of_nonAscii {s : State} {cmd : Command} (h : s.slot.vState ≠ .awaitingResponse)
    (hop : isAscii cmd.op = false) : exec (.arm cmd) s = .refused .nonAsciiOpcode := by
  show execArm cmd s = _
  rw [execArm, decide_eq_true h, require_true, hop, require_false]

theorem exec_arm_of_free {s : State} {cmd : Command} (h : s.slot.vState ≠ .awaitingResponse)
    (hop : isAscii cmd.op = true) : exec (.arm cmd) s = .next (s.recordCommand cmd) := by
  show execArm cmd s = _
  rw [execArm, decide_eq_true h, require_true, hop, require_true]

theorem exec_resp_of_free {s : State} (h : s.slot.vState ≠ .awaitingResponse) (buf : List Byte) :
    exec (.resp buf) s = .refused .nothingOutstanding := by
  show execResp buf s = _
  rw [execResp, decide_eq_false h, require_false]

theorem exec_resp_of_short {s : State} {buf : List Byte} (h : s.slot.vState = .awaitingResponse)
    (hshort : replyLongEnough s.slot.command buf = false) : exec (.resp buf) s = .refused .shortResponse := by
  show execResp buf s = _
  rw [execResp, decide_eq_true h, require_true, verifyReply_short hshort, andThen_refused]

theorem exec_abandon_of_awaiting {s : State} (h : s.slot.vState = .awaitingResponse) :
    exec .abandon s = .next (s.setVState .idle) := by
  show execAbandon s = _
  rw [execAbandon, if_pos h]

theorem exec_abandon_of_free {s : State} (h : s.slot.vState ≠ .awaitingResponse) : exec .abandon s = .next s := by
  show execAbandon s = _
  rw [execAbandon, if_neg h]

/- ### The contract -/

theorem exec_of_inContract {i : Instr} {s : State} (h : InContract i s) : ∃ t, exec i s = .next t := by
  cases i with
  | decU8 | decU16 | decS8 | decS16 | abandon | cmdA | cmdG | cmdX | cmdE => exact ⟨_, rfl⟩
  | parse buf =>
    obtain ⟨r, hr⟩ := exec_parse_result buf
    exact ⟨_, hr s⟩
  | enc op value =>
    obtain ⟨hop, hvalue⟩ := h
    exact ⟨_, execEnc_eq_next.mpr ⟨hop, hvalue, rfl⟩⟩
  | verify cmd resp =>
    obtain ⟨hop, hlong⟩ := h
    obtain ⟨r, hr⟩ := verifyReply_long hlong
    exact ⟨_, (exec_verify_eq_deliver_iff (isAscii_iff.mp hop)).mpr hr⟩
  | arm cmd =>
    obtain ⟨hfree, hop⟩ := h
    exact ⟨_, exec_arm_of_free hfree hop⟩
  | resp buf =>
    obtain ⟨hawaiting, hlong⟩ := h
    obtain ⟨r, hr⟩ := verifyReply_long hlong
    exact ⟨_, exec_resp_of_verifyReply hawaiting hr⟩
  | cmd op value => exact ⟨_, exec_cmd_of_ascii h value s⟩

/-- The refusals of operations in the list of contract violations of R184. -/
def contractRefusals : List Refusal :=
  [.shortResponse, .commandOutstanding, .nothingOutstanding, .nonAsciiOpcode, .negativeValue]

theorem exec_of_not_inContract {i : Instr} {s : State} (h : ¬ InContract i s) :
    ∃ r, exec i s = .refused r ∧ r ∈ contractRefusals := by
  cases i with
  | decU8 | decU16 | decS8 | decS16 | parse | abandon | cmdA | cmdG | cmdX | cmdE => exact absurd trivial h
  | enc op value =>
    by_cases hop : isAscii op = true
    · match value with
      | none => exact absurd ⟨hop, rfl⟩ h
      | some v =>
        have hneg : v < 0 := Int.not_le.mp fun hv => h ⟨hop, decide_eq_true hv⟩
        exact ⟨_, exec_enc_of_negative hop hneg s, by decide⟩
    · exact ⟨_, exec_enc_of_nonAscii (eq_false_of_ne_true hop) value s, by decide⟩
  | verify cmd resp =>
    by_cases hop : isAscii cmd.op = true
    · have hshort : replyLongEnough cmd resp = false := eq_false_of_ne_true fun hlong => h ⟨hop, hlong⟩
      exact ⟨_, exec_verify_of_short (isAscii_iff.mp hop) hshort s, by decide⟩
    · exact ⟨_, exec_verify_of_nonAscii (eq_false_of_ne_true hop) resp s, by decide⟩
  | arm cmd =>
    by_cases hawaiting : s.slot.vState = .awaitingResponse
    · exact ⟨_, exec_arm_of_outstanding hawaiting cmd, by decide⟩
    · have hop : isAscii cmd.op = false := eq_false_of_ne_true fun hop => h ⟨hawaiting, hop⟩
      exact ⟨_, exec_arm_of_nonAscii hawaiting hop, by decide⟩
  | resp buf =>
    by_cases hawaiting : s.slot.vState = .awaitingResponse
    · have hshort : replyLongEnough s.slot.command buf = false :=
        eq_false_of_ne_true fun hlong => h ⟨hawaiting, hlong⟩
      exact ⟨_, exec_resp_of_short hawaiting hshort, by decide⟩
    · exact ⟨_, exec_resp_of_free hawaiting buf, by decide⟩
  | cmd op value => exact ⟨_, exec_cmd_of_nonAscii (eq_false_of_ne_true h) value s, by decide⟩

theorem exec_ne_fault (i : Instr) (s : State) (f : Fault) : exec i s ≠ .fault f := by
  by_cases h : InContract i s
  · obtain ⟨t, ht⟩ := exec_of_inContract h
    simp [ht]
  · obtain ⟨r, hr, -⟩ := exec_of_not_inContract h
    simp [hr]

/-- Settles O39: completion in contract, a listed refusal out of it, operation by operation. -/
theorem operationsCompleteExactlyInContract : Obligations.OperationsCompleteExactlyInContract := by
  unfold Obligations.OperationsCompleteExactlyInContract
  exact fun _ _ => ⟨exec_of_inContract, exec_of_not_inContract⟩

/-- What is well formed and does not need an outstanding command is in contract in an `Idle` slot. -/
theorem inContract_of_idle {i : Instr} {s : State} (hidle : s.slot.vState = .idle) (hwf : i.wellFormed = true)
    (hresp : ∀ buf, i ≠ .resp buf) : InContract i s := by
  cases i with
  | decU8 | decU16 | decS8 | decS16 | parse | abandon | cmdA | cmdG | cmdX | cmdE => trivial
  | enc | verify => exact (Bool.and_eq_true _ _).mp hwf
  | arm cmd => exact ⟨by simp [hidle], hwf⟩
  | resp buf => exact absurd rfl (hresp buf)
  | cmd op value => exact ((Bool.and_eq_true _ _).mp hwf).1

/-- Settles O43: in an `Idle` slot only `RESP` breaks a precondition that is not about its operands. -/
theorem firstOperationAfterReset : Obligations.FirstOperationAfterReset := by
  unfold Obligations.FirstOperationAfterReset
  intro s hidle
  have hfree : s.slot.vState ≠ .awaitingResponse := by simp [hidle]
  exact ⟨fun i hwf hresp => exec_of_inContract (inContract_of_idle hidle hwf hresp), exec_abandon_of_free hfree,
    exec_resp_of_free hfree⟩

/- ### Pure operations: the operands decide, the order does not -/

/-- Settles O54: the answer is `pureResult`, which is not a fault because no operation faults. -/
theorem pureOperationsDependOnOperandsAlone : Obligations.PureOperationsDependOnOperandsAlone := by
  unfold Obligations.PureOperationsDependOnOperandsAlone
  intro i hi
  cases ha : pureResult i hi with
  | next r => exact .inl ⟨r, fun s => (exec_pure_eq_next hi).mpr ⟨r, ha, rfl⟩⟩
  | fault f => exact absurd (by rw [exec_pure hi, ha, andThen_fault]) (exec_ne_fault i State.reset f)
  | refused r => exact .inr ⟨r, fun s => by rw [exec_pure hi, ha, andThen_refused]⟩

/-- Settles O55: each operation delivers its own `pureResult`, from whatever state. -/
theorem pureOperationsCommute : Obligations.PureOperationsCommute := by
  unfold Obligations.PureOperationsCommute
  intro i j s t u hi hj hit hju
  obtain ⟨ri, hri, rfl⟩ := (exec_pure_eq_next hi).mp hit
  obtain ⟨rj, hrj, rfl⟩ := (exec_pure_eq_next hj).mp hju
  refine ⟨ri, rj, s.deliver rj, ?_, (exec_pure_eq_next hj).mpr ⟨rj, hrj, rfl⟩,
    (exec_pure_eq_next hi).mpr ⟨ri, hri, ?_⟩⟩
  all_goals simp [State.deliver]

end Sys2Proof.Machine
end

section
/-! PROOFS. One step (spec 00_scope.md R8, 20_memory.md R53), and what no operation and no step observes (10_state.md
sections 1 to 4): a relation of states that the updates of the state keep is kept by every operation and every step, and
related states are answered alike. -/

namespace Sys2Proof.Machine

/- ### A step, by what the host presents first -/

theorem step_of_nothing_presented {s : State} (h : s.pending = []) : step s = .next s :=
  takeEvent_waiting h _ _ _ _

theorem step_of_reset {s : State} {rest : List Event} (h : s.pending = .reset :: rest) :
    step s = .next (State.applyReset { s with pending := rest }) :=
  takeEvent_reset h _ _ _ _

theorem step_of_instr {s : State} {r : Request} {rest : List Event} {i : Instr} (h : s.pending = .request r :: rest)
    (hd : decode r = .ok i) : step s = exec i { s with pending := rest } :=
  takeEvent_instr h hd _ _ _ _

theorem step_of_reject {s : State} {r : Request} {rest : List Event} {e : Rejection}
    (h : s.pending = .request r :: rest) (hd : decode r = .error e) : step s = .refused (refusalOf e) :=
  takeEvent_reject h hd _ _ _ _

theorem step_ne_fault (s : State) (f : Fault) : step s ≠ .fault f := by
  match hp : s.pending with
  | [] => simp [step_of_nothing_presented hp]
  | .reset :: rest => simp [step_of_reset hp]
  | .request r :: rest =>
    cases hd : decode r with
    | ok i => exact step_of_instr hp hd ▸ exec_ne_fault i _ f
    | error e => simp [step_of_reject hp hd]

theorem exists_memRead1_eq_next_iff {buf : List Byte} {off : Nat} :
    (∃ b, memRead1 buf off = .next b) ↔ off + 1 ≤ buf.length := by
  constructor
  · rintro ⟨x, hx⟩
    obtain ⟨b, hb, -⟩ := memRead1_next hx
    exact (List.getElem?_eq_some_iff.mp hb).1
  · intro h
    exact ⟨_, memRead1_of_getElem? (List.getElem?_eq_getElem h)⟩

theorem exists_memRead2_eq_next_iff {buf : List Byte} {off : Nat} :
    (∃ b, memRead2 buf off = .next b) ↔ off + 2 ≤ buf.length := by
  constructor
  · rintro ⟨x, hx⟩
    obtain ⟨b0, b1, -, hb1, -⟩ := memRead2_next hx
    exact (List.getElem?_eq_some_iff.mp hb1).1
  · intro h
    exact ⟨_, memRead2_of_getElem? (List.getElem?_eq_getElem (Nat.lt_of_succ_lt h)) (List.getElem?_eq_getElem h)⟩

/-- Settles O40: the two bounds, and that an operation completes or is refused. -/
theorem noReadOutsideABuffer : Obligations.NoReadOutsideABuffer := by
  unfold Obligations.NoReadOutsideABuffer
  exact ⟨fun _ _ => ⟨exists_memRead1_eq_next_iff, exists_memRead2_eq_next_iff⟩, exec_ne_fault, step_ne_fault⟩

/-- Settles O48: the two answers of `takeEvent` on a request. -/
theorem stepRunsDecodedInstruction : Obligations.StepRunsDecodedInstruction := by
  unfold Obligations.StepRunsDecodedInstruction
  exact fun _ _ _ h => ⟨fun _ => step_of_instr h, fun _ => step_of_reject h⟩

/-- Settles O49: the answer of `takeEvent` on an empty list. -/
theorem stepWaitsWithNothingPresented : Obligations.StepWaitsWithNothingPresented := by
  unfold Obligations.StepWaitsWithNothingPresented
  exact fun _ => step_of_nothing_presented

/-- Settles O41: the free values of `applyReset` are the unspecified contents. -/
theorem resetEventIdles : Obligations.ResetEventIdles := by
  unfold Obligations.ResetEventIdles
  exact fun s rest h => ⟨_, _, _, _, step_of_reset h⟩

/- ### Answers that agree -/

/-- Two answers agree up to a relation of states: both go on, to related states, or both stop for the same reason. -/
inductive AnswersAgree (R : State → State → Prop) : Answer State → Answer State → Prop where
  | next {s t : State} : R s t → AnswersAgree R (.next s) (.next t)
  | fault (f : Fault) : AnswersAgree R (.fault f) (.fault f)
  | refused (r : Refusal) : AnswersAgree R (.refused r) (.refused r)

namespace AnswersAgree

variable {R : State → State → Prop} {a b : Answer State}

theorem exists_next {s : State} (h : AnswersAgree R (.next s) b) : ∃ t, b = .next t ∧ R s t := by
  cases h with
  | next h => exact ⟨_, rfl, h⟩

theorem eq_refused {r : Refusal} (h : AnswersAgree R (.refused r) b) : b = .refused r := by
  cases h
  rfl

theorem of_require (c : Bool) (e : Refusal) (h : AnswersAgree R a b) :
    AnswersAgree R (require c e a) (require c e b) := by
  cases c with
  | true => exact h
  | false => exact .refused e

theorem of_andThen {α : Type} (x : Answer α) {f g : α → Answer State} (h : ∀ y, AnswersAgree R (f y) (g y)) :
    AnswersAgree R (andThen x f) (andThen x g) := by
  cases x with
  | next y => exact h y
  | fault f => exact .fault f
  | refused r => exact .refused r

end AnswersAgree

/- ### Simulations -/

/-- A relation of states that agree in what operations read, and that the updates of the state keep. -/
structure Simulation (R : State → State → Prop) : Prop where
  slots_agree {s t : State} : R s t → SlotsAgree s.slot t.slot
  pending_eq {s t : State} : R s t → t.pending = s.pending
  take {s t : State} (rest : List Event) : R s t → R { s with pending := rest } { t with pending := rest }
  deliver {s t : State} (r : Result) : R s t → R (s.deliver r) (t.deliver r)
  setVState {s t : State} {v : VState} : v ≠ .awaitingResponse → R s t → R (s.setVState v) (t.setVState v)
  recordCommand {s t : State} (cmd : Command) : R s t → R (s.recordCommand cmd) (t.recordCommand cmd)
  applyReset {s t : State} : R s t → R s.applyReset t.applyReset

theorem resultTag_ne_awaitingResponse (r : VerificationResult) : resultTag r ≠ .awaitingResponse := by
  cases r <;> simp [resultTag]

namespace Simulation

variable {R : State → State → Prop} {s t : State}

/-- Operations read the slot through `V_STATE` and, with a command outstanding, the recorded command, and write the
state by the updates alone. -/
theorem exec_agree (hR : Simulation R) (h : R s t) (i : Instr) : AnswersAgree R (exec i s) (exec i t) := by
  have hagree := hR.slots_agree h
  have hvState : t.slot.vState = s.slot.vState := hagree.1
  have pure (hi : IsPure i) : AnswersAgree R (exec i s) (exec i t) := by
    rw [exec_pure hi, exec_pure hi]
    exact .of_andThen _ fun r => .next (hR.deliver r h)
  cases i with
  | arm cmd =>
    show AnswersAgree R (execArm cmd s) (execArm cmd t)
    rw [execArm, execArm, hvState]
    exact .of_require _ _ (.of_require _ _ (.next (hR.recordCommand cmd h)))
  | resp buf =>
    by_cases ha : s.slot.vState = .awaitingResponse
    · show AnswersAgree R (execResp buf s) (execResp buf t)
      rw [execResp, execResp, hvState, hagree.command_eq ha]
      exact .of_require _ _ (.of_andThen _ fun r =>
        .next (hR.deliver _ (hR.setVState (resultTag_ne_awaitingResponse r) h)))
    · rw [exec_resp_of_free ha, exec_resp_of_free (hvState ▸ ha)]
      exact .refused _
  | abandon =>
    by_cases ha : s.slot.vState = .awaitingResponse
    · rw [exec_abandon_of_awaiting ha, exec_abandon_of_awaiting (hvState.trans ha)]
      exact .next (hR.setVState nofun h)
    · rw [exec_abandon_of_free ha, exec_abandon_of_free (hvState ▸ ha)]
      exact .next h
  | decU8 | decU16 | decS8 | decS16 | parse | enc | verify | cmdA | cmdG | cmdX | cmdE | cmd => exact pure trivial

theorem step_agree (hR : Simulation R) (h : R s t) : AnswersAgree R (step s) (step t) := by
  have hpending := hR.pending_eq h
  match hp : s.pending with
  | [] =>
    rw [step_of_nothing_presented hp, step_of_nothing_presented (hpending.trans hp)]
    exact .next h
  | .reset :: rest =>
    rw [step_of_reset hp, step_of_reset (hpending.trans hp)]
    exact .next (hR.applyReset (hR.take rest h))
  | .request r :: rest =>
    cases hd : decode r with
    | ok i =>
      rw [step_of_instr hp hd, step_of_instr (hpending.trans hp) hd]
      exact hR.exec_agree (hR.take rest h) i
    | error e =>
      rw [step_of_reject hp hd, step_of_reject (hpending.trans hp) hd]
      exact .refused _

end Simulation

/- ### What was delivered -/

/-- Two states that differ in what was delivered alone: after `before` and `before'` the same results followed. -/
def SameButDelivered (before before' : List Result) (s t : State) : Prop :=
  ∃ new, s.delivered = before ++ new ∧ t = { s with delivered := before' ++ new }

theorem simulation_sameButDelivered (before before' : List Result) :
    Simulation (SameButDelivered before before') where
  slots_agree := by
    rintro s _ ⟨new, -, rfl⟩
    obtain ⟨-, -, hslots⟩ := indistinguishable_refl s
    exact hslots
  pending_eq := by
    rintro s _ ⟨new, -, rfl⟩
    rfl
  take rest := by
    rintro ⟨new, hs, rfl⟩
    exact ⟨new, hs, rfl⟩
  deliver r := by
    rintro ⟨new, hs, rfl⟩
    exact ⟨new ++ [r], by simp [hs], by simp [State.deliver]⟩
  setVState _ := by
    rintro ⟨new, hs, rfl⟩
    exact ⟨new, hs, rfl⟩
  recordCommand cmd := by
    rintro ⟨new, hs, rfl⟩
    obtain ⟨op, _ | v⟩ := cmd <;> exact ⟨new, hs, rfl⟩
  applyReset h := by
    obtain ⟨new, hs, rfl⟩ := h
    exact ⟨new, hs, rfl⟩

/-- Settles O52: differing in the deliveries alone is a simulation. -/
theorem deliveredResultsAreNotRead : Obligations.DeliveredResultsAreNotRead := by
  unfold Obligations.DeliveredResultsAreNotRead
  intro s other
  have hstep := (simulation_sameButDelivered s.delivered other).step_agree (s := s) ⟨[], by simp, rfl⟩
  rw [List.append_nil] at hstep
  refine ⟨?next, ?refused⟩
  case next =>
    intro t ht
    obtain ⟨_, hu, new, hnew, rfl⟩ := (ht ▸ hstep).exists_next
    exact ⟨new, hnew, hu⟩
  case refused =>
    intro r hr
    exact (hr ▸ hstep).eq_refused

/- ### Unspecified registers -/

/-- Indistinguishable states whose counters of free values are equal if `DrawsEqual` holds. -/
def IndistinguishableWith (DrawsEqual : Prop) (s t : State) : Prop :=
  Indistinguishable s t ∧ (DrawsEqual → t.draws = s.draws)

theorem simulation_indistinguishableWith (DrawsEqual : Prop) : Simulation (IndistinguishableWith DrawsEqual) where
  slots_agree := fun ⟨⟨_, _, hslots⟩, _⟩ => hslots
  pending_eq := fun ⟨⟨hpending, _, _⟩, _⟩ => hpending
  take _ := fun ⟨⟨_, hrest⟩, hdraws⟩ => ⟨⟨rfl, hrest⟩, hdraws⟩
  deliver r := fun ⟨h, hdraws⟩ => ⟨h.deliver r, hdraws⟩
  setVState hv := fun ⟨h, hdraws⟩ => ⟨h.setVState hv, hdraws⟩
  recordCommand cmd := by
    rintro ⟨h, hdraws⟩
    refine ⟨h.recordCommand cmd, fun hequal => ?_⟩
    obtain ⟨op, _ | v⟩ := cmd
    · exact congrArg (· + 1) (hdraws hequal)
    · exact hdraws hequal
  applyReset := fun ⟨h, hdraws⟩ => ⟨h.applyReset, fun hequal => congrArg (· + 1) (hdraws hequal)⟩

/-- Settles O53: being indistinguishable is a simulation, with the counters of free values equal or not. -/
theorem unspecifiedRegistersAreNotObservable : Obligations.UnspecifiedRegistersAreNotObservable := by
  unfold Obligations.UnspecifiedRegistersAreNotObservable
  intro s t h
  have hR := simulation_indistinguishableWith (t.draws = s.draws)
  have hst : IndistinguishableWith (t.draws = s.draws) s t := ⟨h, id⟩
  exact ⟨fun s' hs => (hs ▸ hR.step_agree hst).exists_next, fun r hr => (hr ▸ hR.step_agree hst).eq_refused,
    fun i => ⟨fun s' hs => (hs ▸ hR.exec_agree hst i).exists_next, fun r hr => (hr ▸ hR.exec_agree hst i).eq_refused⟩⟩

end Sys2Proof.Machine
end

section
/-! PROOFS. The encoding (spec 30_encoding.md R61, R64, R68, R69, R72, R73): the instruction a command frame stands for
by its opcode and value, and that decoder and encoder are inverse on what is well formed. -/

namespace Sys2Proof.Machine

/- ### Command frames -/

/-- The command-frame row of an opcode, with its value: the four known opcodes have rows of their own (R68, R69). -/
def frameInstr (op : Byte) (value : Half) : Instr :=
  if op = Config.opcodeA then .cmdA value
  else if op = Config.opcodeG then .cmdG value
  else if op = Config.opcodeX then .cmdX value
  else if op = Config.opcodeE then .cmdE value
  else .cmd op value

theorem decode_frame_of_ascii {w : BitVec 32} (h : isAscii (wordOpcode w) = true) :
    decode (.frame w) = .ok (frameInstr (wordOpcode w) (wordValue w)) := by
  simp only [decode, decodeFrame, h, frameInstr, Bool.not_true, Bool.false_eq_true, if_false]
  split_ifs <;> rfl

theorem decode_frame_of_nonAscii {w : BitVec 32} (h : isAscii (wordOpcode w) = false) :
    decode (.frame w) = .error .nonAsciiOpcode := by
  simp [decode, decodeFrame, h]

theorem frameInstr_of_not_hasOwnRow {op : Byte} (h : hasOwnRow op = false) (value : Half) :
    frameInstr op value = .cmd op value := by
  simp only [hasOwnRow, Bool.or_eq_false_iff, decide_eq_false_iff_not] at h
  obtain ⟨⟨⟨hA, hG⟩, hX⟩, hE⟩ := h
  rw [frameInstr, if_neg hA, if_neg hG, if_neg hX, if_neg hE]

/-- What holds of the four rows of their own and of `CMD` on the other opcodes holds of every command frame. -/
theorem frameInstr_cases {P : Byte → Instr → Prop} (value : Half) (hA : P Config.opcodeA (.cmdA value))
    (hG : P Config.opcodeG (.cmdG value)) (hX : P Config.opcodeX (.cmdX value)) (hE : P Config.opcodeE (.cmdE value))
    (op : Byte) (hcmd : hasOwnRow op = false → P op (.cmd op value)) : P op (frameInstr op value) := by
  cases hown : hasOwnRow op with
  | false => exact frameInstr_of_not_hasOwnRow hown value ▸ hcmd hown
  | true =>
    simp only [hasOwnRow, Bool.or_eq_true, decide_eq_true_eq] at hown
    obtain ((rfl | rfl) | rfl) | rfl := hown
    · exact hA
    · exact hG
    · exact hX
    · exact hE

theorem encode_frameInstr (op : Byte) (value : Half) :
    encode (frameInstr op value) = .frame (commandWord op value) :=
  frameInstr_cases (P := fun op i => encode i = .frame (commandWord op value)) value rfl rfl rfl rfl op fun _ => rfl

theorem wellFormed_frameInstr {op : Byte} (h : isAscii op = true) (value : Half) :
    (frameInstr op value).wellFormed = true :=
  frameInstr_cases (P := fun _ i => i.wellFormed = true) value rfl rfl rfl rfl op fun hown => by
    simp [Instr.wellFormed, h, hown]

theorem exec_frameInstr {op : Byte} (h : isAscii op = true) (value : Half) (s : State) :
    exec (frameInstr op value) s = .next (s.deliver (.commandFrame (encodeFrame op value.toNat))) :=
  frameInstr_cases (P := fun op i => exec i s = .next (s.deliver (.commandFrame (encodeFrame op value.toNat)))) value
    rfl rfl rfl rfl op fun _ => exec_cmd_of_ascii h value s

/-- A well-formed instruction that is encoded as a frame is the row of an ASCII opcode. -/
theorem exists_frameInstr_of_encode {i : Instr} {w : BitVec 32} (hwf : i.wellFormed = true) (h : encode i = .frame w) :
    ∃ op value, isAscii op = true ∧ i = frameInstr op value := by
  cases i with
  | decU8 | decU16 | decS8 | decS16 | parse | enc | verify | arm | resp | abandon => cases h
  | cmdA value => exact ⟨Config.opcodeA, value, by decide, rfl⟩
  | cmdG value => exact ⟨Config.opcodeG, value, by decide, rfl⟩
  | cmdX value => exact ⟨Config.opcodeX, value, by decide, rfl⟩
  | cmdE value => exact ⟨Config.opcodeE, value, by decide, rfl⟩
  | cmd op value =>
    simp only [Instr.wellFormed, Bool.and_eq_true, Bool.not_eq_true'] at hwf
    obtain ⟨hop, hown⟩ := hwf
    exact ⟨op, value, hop, (frameInstr_of_not_hasOwnRow hown value).symm⟩

theorem decode_commandWord {op : Byte} (h : isAscii op = true) (value : Half) :
    decode (.frame (commandWord op value)) = .ok (frameInstr op value) := by
  have hdecode := decode_frame_of_ascii (w := commandWord op value) (by rwa [wordOpcode_commandWord])
  rwa [wordOpcode_commandWord, wordValue_commandWord] at hdecode

theorem decode_encode_of_frame {i : Instr} {w : BitVec 32} (hwf : i.wellFormed = true) (h : encode i = .frame w) :
    decode (encode i) = .ok i := by
  obtain ⟨op, value, hop, rfl⟩ := exists_frameInstr_of_encode hwf h
  rw [encode_frameInstr, decode_commandWord hop]

/-- Settles O44: the ports of an operation are its operands, a command word is decoded field by field. -/
theorem decodeOfEncode : Obligations.DecodeOfEncode := by
  unfold Obligations.DecodeOfEncode
  intro i hwf
  cases i with
  | decU8 | decU16 | decS8 | decS16 | parse | enc | verify | arm | resp | abandon => rfl
  | cmdA | cmdG | cmdX | cmdE | cmd => exact decode_encode_of_frame hwf rfl

/-- Settles O45: the instruction is the row of the word's opcode, whose encoding is the word of its fields. -/
theorem frameWordsRoundTrip : Obligations.FrameWordsRoundTrip := by
  unfold Obligations.FrameWordsRoundTrip
  intro w hchecksum hop
  have hascii := isAscii_iff.mpr hop
  exact ⟨frameInstr (wordOpcode w) (wordValue w), decode_frame_of_ascii hascii, wellFormed_frameInstr hascii _,
    (encode_frameInstr _ _).trans (congrArg Request.frame (commandWord_of_fields hchecksum))⟩

/-- Settles O23: the row delivers the encoder's frame, whose flattening is the command word. -/
theorem deliveredFrameIsTheEncodedWord : Obligations.DeliveredFrameIsTheEncodedWord := by
  unfold Obligations.DeliveredFrameIsTheEncodedWord
  intro i w s hwf hencode
  obtain ⟨op, value, hop, rfl⟩ := exists_frameInstr_of_encode hwf hencode
  rw [encode_frameInstr, ← frameWord_encodeFrame] at hencode
  obtain rfl := Request.frame.inj hencode
  exact ⟨encodeFrame op value.toNat, exec_frameInstr hop value s, rfl, frameWord_toNat _⟩

/-- Settles O22: each row delivers the encoder's frame of its opcode and value. -/
theorem commandFrameRowsDeliverTheirFrame : Obligations.CommandFrameRowsDeliverTheirFrame := by
  unfold Obligations.CommandFrameRowsDeliverTheirFrame
  intro s
  refine ⟨rfl, rfl, rfl, fun i op v hi => ?_⟩
  rw [← encodeFrame_of_le op (Nat.le_of_lt_succ v.isLt)]
  obtain ⟨rfl, rfl⟩ | ⟨rfl, rfl⟩ | ⟨rfl, rfl⟩ | ⟨rfl, rfl⟩ | ⟨hop, rfl⟩ := hi
  · rfl
  · rfl
  · rfl
  · rfl
  · exact exec_cmd_of_ascii (isAscii_iff.mpr hop) v s

/-- Settles O20: the four operations and the decoder look at the opcode; `ARM` alone looks at the slot before. -/
theorem nonAsciiOpcodesAreRefused : Obligations.NonAsciiOpcodesAreRefused := by
  unfold Obligations.NonAsciiOpcodesAreRefused
  intro s op hop
  have hascii := isAscii_eq_false_iff.mpr hop
  refine ⟨fun value => exec_enc_of_nonAscii hascii value s, fun value => exec_cmd_of_nonAscii hascii value s,
    fun value resp => exec_verify_of_nonAscii hascii resp s, fun hfree value => exec_arm_of_nonAscii hfree hascii,
    ?frame⟩
  case frame =>
    intro w rest hw
    have hword : wordOpcode w = op := BitVec.eq_of_toNat_eq ((wordOpcode_toNat w).trans hw)
    exact step_request_error (decode_frame_of_nonAscii (hword ▸ hascii)) s rest

/- ### `OPSEL` codes and table words -/

theorem decode_op_of_reserved {opsel : BitVec 4} (h : opsel.toNat = 0b0111 ∨ 0b1011 ≤ opsel.toNat) (p : Ports) :
    decode (.op opsel p) = .error .reservedOpsel := by
  show decodeOp opsel p = _
  unfold decodeOp
  split
  case h_11 => rfl
  all_goals omega

theorem decode_op_of_not_reserved {opsel : BitVec 4} (h7 : opsel.toNat ≠ 0b0111) (hlt : opsel.toNat < 0b1011)
    (p : Ports) : ∃ i, decode (.op opsel p) = .ok i := by
  show ∃ i, decodeOp opsel p = .ok i
  unfold decodeOp
  split
  case h_11 =>
    simp only [imp_false] at *
    omega
  all_goals exact ⟨_, rfl⟩

/-- Settles O47: the assigned codes are the rows of R72, the others fall through to the rejection. -/
theorem reservedOpselsAreRefused : Obligations.ReservedOpselsAreRefused := by
  unfold Obligations.ReservedOpselsAreRefused
  intro opsel p
  refine ⟨⟨?selects, fun ⟨h7, hlt⟩ => decode_op_of_not_reserved h7 hlt p⟩,
    fun s rest h => step_request_error (decode_op_of_reserved h p) s rest⟩
  case selects =>
    rintro ⟨i, hi⟩
    by_contra h
    have hreserved : opsel.toNat = 0b0111 ∨ 0b1011 ≤ opsel.toNat := by omega
    cases hi.symm.trans (decode_op_of_reserved hreserved p)

/-- Settles O46: the decoder computes on each of the nine words. -/
theorem tableWordsDecode : Obligations.TableWordsDecode := by
  unfold Obligations.TableWordsDecode
  exact ⟨rfl, rfl, rfl, rfl, rfl, rfl, rfl, rfl, rfl⟩

/- ### Presenting an encoded instruction -/

/-- A step on the request that encodes a well-formed instruction executes that instruction. -/
theorem step_of_encode {i : Instr} {s : State} {rest : List Event} (h : s.pending = .request (encode i) :: rest)
    (hwf : i.wellFormed = true) : step s = exec i { s with pending := rest } :=
  step_of_instr h (decodeOfEncode i hwf)

/-- Settles O59: the step executes `DECU16` of bytes 1 and 2; a shorter reply has none of the script's form. -/
theorem isetDecodesBytesOneAndTwo : Obligations.IsetDecodesBytesOneAndTwo := by
  unfold Obligations.IsetDecodesBytesOneAndTwo
  refine ⟨fun s r0 b1 b2 surplus rest => ⟨rfl, ?step⟩, ?short⟩
  case step =>
    rw [← decU_two]
    exact (step_of_encode (i := .decU16 b1 b2) rfl rfl).trans rfl
  case short =>
    intro buf h
    match buf with
    | [] | [_] | [_, _] => rfl
    | _ :: _ :: _ :: _ => exact absurd h (by simp)

end Sys2Proof.Machine
end

section
/-! PROOFS. What a completed operation changes (spec 10_state.md section 2, 43_response_verifier.md section 3), the
invariant of the slot along runs, and which operation can deliver a verdict or `FrameTooShort`. -/

namespace Sys2Proof.Machine

/- ### The recorded command and the tags -/

@[simp] theorem State.recordCommand_command (s : State) (cmd : Command) : (s.recordCommand cmd).slot.command = cmd := by
  obtain ⟨op, _ | v⟩ := cmd <;> rfl

/-- The recorded command has a value only when `V_HASVAL` is 1 (R27). -/
theorem Slot.hasVal_of_command_value {slot : Slot} {v : Half} (h : slot.command.value = some v) :
    slot.vHasVal = true := by
  by_contra hval
  cases h.symm.trans (Slot.command_value_of_not_hasVal (eq_false_of_ne_true hval))

theorem resultTag_eq_valueMismatch_iff {r : VerificationResult} :
    resultTag r = .valueMismatch ↔ ∃ expected actual, r = .valueMismatch expected actual := by
  cases r <;> simp [resultTag]

theorem resultTag_eq_opcodeMismatch_iff {r : VerificationResult} :
    resultTag r = .opcodeMismatch ↔ r = .opcodeMismatch := by
  cases r <;> simp [resultTag]

/- ### The frame of a completed operation -/

namespace ExecNext

variable {i : Instr} {s t : State}

theorem pending_eq (h : ExecNext i s t) : t.pending = s.pending := by
  cases h with
  | pure r _ ht => exact ht ▸ rfl
  | arm cmd _ _ _ ht => exact ht ▸ State.recordCommand_pending s cmd
  | resp buf r _ _ _ ht => exact ht ▸ rfl
  | abandon _ ht =>
    subst ht
    split <;> rfl

theorem slot_eq_of_isPure (h : ExecNext i s t) (hi : IsPure i) : t.slot = s.slot := by
  cases h with
  | pure r _ ht => exact ht ▸ rfl
  | arm _ hrow | resp _ _ hrow | abandon hrow =>
    subst hrow
    exact hi.elim

/-- `RESP` and `ABANDON` write `V_STATE` alone. -/
theorem command_registers_eq (h : ExecNext i s t) (hi : ∀ cmd, i ≠ .arm cmd) :
    t.slot.vOp = s.slot.vOp ∧ t.slot.vHasVal = s.slot.vHasVal ∧ t.slot.vVal = s.slot.vVal := by
  cases h with
  | pure r _ ht => exact ht ▸ ⟨rfl, rfl, rfl⟩
  | arm cmd hrow => exact absurd hrow (hi cmd)
  | resp buf r _ _ _ ht => exact ht ▸ ⟨rfl, rfl, rfl⟩
  | abandon _ ht =>
    subst ht
    split <;> exact ⟨rfl, rfl, rfl⟩

theorem draws_eq (h : ExecNext i s t) (hi : ∀ op, i ≠ .arm { op := op, value := none }) : t.draws = s.draws := by
  cases h with
  | pure r _ ht => exact ht ▸ rfl
  | arm cmd hrow _ _ ht =>
    obtain ⟨op, _ | v⟩ := cmd
    · exact absurd hrow (hi op)
    · exact ht ▸ rfl
  | resp buf r _ _ _ ht => exact ht ▸ rfl
  | abandon _ ht =>
    subst ht
    split <;> rfl

/-- `ARM` and `ABANDON` deliver nothing, every other operation delivers one result. -/
theorem delivered_cases (h : ExecNext i s t) :
    ((i = .abandon ∨ ∃ cmd, i = .arm cmd) ∧ t.delivered = s.delivered) ∨
    (¬(i = .abandon ∨ ∃ cmd, i = .arm cmd) ∧ ∃ r, t.delivered = s.delivered ++ [r]) := by
  cases h with
  | pure r hi ht =>
    refine .inr ⟨?_, r, ht ▸ rfl⟩
    rintro (rfl | ⟨cmd, rfl⟩) <;> exact hi.elim
  | arm cmd hrow _ _ ht => exact .inl ⟨.inr ⟨cmd, hrow⟩, ht ▸ State.recordCommand_delivered s cmd⟩
  | resp buf r hrow _ _ ht =>
    subst ht
    exact .inr ⟨by simp [hrow], _, rfl⟩
  | abandon hrow ht =>
    refine .inl ⟨.inl hrow, ?_⟩
    subst ht
    split <;> rfl

theorem delivered_append (h : ExecNext i s t) : ∃ new, t.delivered = s.delivered ++ new := by
  obtain ⟨-, hd⟩ | ⟨-, r, hd⟩ := h.delivered_cases
  · exact ⟨[], by simp [hd]⟩
  · exact ⟨[r], hd⟩

/-- The table of transitions (43_response_verifier.md section 3). -/
theorem vState_cases (h : ExecNext i s t) :
    (IsPure i ∧ t.slot.vState = s.slot.vState) ∨
    (∃ cmd, i = .arm cmd ∧ s.slot.vState ≠ .awaitingResponse ∧ t.slot.vState = .awaitingResponse) ∨
    (∃ buf, i = .resp buf ∧ s.slot.vState = .awaitingResponse ∧
      t.slot.vState ∈ [.matched, .opcodeMismatch, .valueMismatch]) ∨
    (i = .abandon ∧ s.slot.vState = .awaitingResponse ∧ t.slot.vState = .idle) ∨
    (i = .abandon ∧ s.slot.vState ≠ .awaitingResponse ∧ t.slot.vState = s.slot.vState) := by
  cases h with
  | pure r hi ht => exact .inl ⟨hi, ht ▸ rfl⟩
  | arm cmd hrow hfree _ ht =>
    exact .inr (.inl ⟨cmd, hrow, hfree, ht ▸ State.recordCommand_vState s cmd⟩)
  | resp buf r hrow hawaiting _ ht =>
    subst ht
    refine .inr (.inr (.inl ⟨buf, hrow, hawaiting, ?_⟩))
    cases r <;> simp [resultTag]
  | abandon hrow ht =>
    subst ht
    by_cases hawaiting : s.slot.vState = .awaitingResponse
    · exact .inr (.inr (.inr (.inl ⟨hrow, hawaiting, by simp [hawaiting]⟩)))
    · exact .inr (.inr (.inr (.inr ⟨hrow, hawaiting, by simp [hawaiting]⟩)))

end ExecNext

/-- Settles O56: the frame, clause by clause, over the four ways to complete. -/
theorem completedOperationsChangeNothingElse : Obligations.CompletedOperationsChangeNothingElse := by
  unfold Obligations.CompletedOperationsChangeNothingElse
  intro i s t hexec
  have h := exec_cases hexec
  refine ⟨h.pending_eq, h.slot_eq_of_isPure, h.command_registers_eq, h.draws_eq, ?nothing, ?oneResult⟩
  case nothing =>
    obtain ⟨hrow, hd⟩ | ⟨hrow, r, hd⟩ := h.delivered_cases
    · exact iff_of_true hd hrow
    · exact iff_of_false (by simp [hd]) hrow
  case oneResult =>
    rintro ⟨habandon, harm⟩
    obtain ⟨hrow, -⟩ | ⟨-, hr⟩ := h.delivered_cases
    · exact absurd hrow (by simp [habandon, harm])
    · exact hr

/-- Settles O32: the table of transitions. -/
theorem slotTransitions : Obligations.SlotTransitions := by
  unfold Obligations.SlotTransitions
  exact fun _ _ _ hexec => (exec_cases hexec).vState_cases

/-- Settles O57: of the steps, waiting keeps `V_STATE`, and by the table only `RESP` and `ABANDON` leave
`AwaitingResponse`. -/
theorem awaitingIsLeftByTheHostOnly : Obligations.AwaitingIsLeftByTheHostOnly := by
  unfold Obligations.AwaitingIsLeftByTheHostOnly
  intro s t hstep hs ht
  obtain ⟨-, rfl⟩ | ⟨rest, hp, -⟩ | ⟨r, rest, i, hp, hd, hexec⟩ := step_cases hstep
  · exact absurd hs ht
  · exact .inl ⟨rest, hp⟩
  · refine .inr ⟨r, rest, hp, ?_⟩
    obtain ⟨-, hv⟩ | ⟨cmd, -, hfree, -⟩ | ⟨buf, rfl, -, -⟩ | ⟨rfl, -, -⟩ | ⟨rfl, -, -⟩ := hexec.vState_cases
    · exact absurd (hv.trans hs) ht
    · exact absurd hs hfree
    · exact .inr ⟨buf, hd⟩
    · exact .inl hd
    · exact .inl hd

/- ### The invariant of the slot -/

theorem slotInv_of_idle {slot : Slot} (h : slot.vState = .idle) : SlotInv slot :=
  ⟨fun hne => absurd h hne, fun hv => absurd (h.symm.trans hv) nofun⟩

/-- `RESP` enters `ValueMismatch` only with the verdict on a command with a value. -/
theorem slotInv_setVState_resultTag {s : State} {buf : List Byte} {r : VerificationResult} (hinv : SlotInv s.slot)
    (hawaiting : s.slot.vState = .awaitingResponse) (hr : verifyReply s.slot.command buf = .next r) :
    SlotInv (s.setVState (resultTag r)).slot := by
  refine ⟨fun _ => hinv.1 (by simp [hawaiting]), fun htag => ?_⟩
  obtain ⟨expected, actual, rfl⟩ := resultTag_eq_valueMismatch_iff.mp htag
  obtain ⟨op, v, -, -, -, hcmd, -⟩ := verifyReply_mismatch hr
  exact Slot.hasVal_of_command_value (congrArg Command.value hcmd)

theorem ExecNext.slotInv {i : Instr} {s t : State} (h : ExecNext i s t) (hinv : SlotInv s.slot) : SlotInv t.slot := by
  cases h with
  | pure r _ ht => exact ht ▸ hinv
  | arm cmd _ _ hop ht =>
    subst ht
    exact ⟨fun _ => by simpa using hop, fun hv => by simp at hv⟩
  | resp buf r _ hawaiting hr ht => exact ht ▸ slotInv_setVState_resultTag hinv hawaiting hr
  | abandon _ ht =>
    subst ht
    split
    · exact slotInv_of_idle rfl
    · exact hinv

/-- Settles O50: waiting changes nothing, a reset enters `Idle`, an operation keeps the invariant. -/
theorem stepKeepsSlotInvariant : Obligations.StepKeepsSlotInvariant := by
  unfold Obligations.StepKeepsSlotInvariant
  intro s t hinv hstep
  obtain ⟨-, rfl⟩ | ⟨rest, -, rfl⟩ | ⟨r, rest, i, -, -, hexec⟩ := step_cases hstep
  · exact hinv
  · exact slotInv_of_idle rfl
  · exact hexec.slotInv hinv

/-- Settles O51: the slot is `Idle`. -/
theorem resetHasSlotInvariant : Obligations.ResetHasSlotInvariant := by
  unfold Obligations.ResetHasSlotInvariant
  exact slotInv_of_idle rfl

/-- Settles O42: the fields of `State.reset`. -/
theorem resetStateIsIdle : Obligations.ResetStateIsIdle := by
  unfold Obligations.ResetStateIsIdle
  exact ⟨rfl, rfl, rfl, rfl⟩

theorem step_delivered_append {s t : State} (h : step s = .next t) : ∃ new, t.delivered = s.delivered ++ new := by
  obtain ⟨-, rfl⟩ | ⟨rest, -, rfl⟩ | ⟨r, rest, i, -, -, hexec⟩ := step_cases h
  · exact ⟨[], by simp⟩
  · exact ⟨[], by simp⟩
  · exact hexec.delivered_append

/-- Settles O58: induction over the run; what the host adds touches neither the slot nor the deliveries. -/
theorem runsKeepInvariantAndDeliveries : Obligations.RunsKeepInvariantAndDeliveries := by
  unfold Obligations.RunsKeepInvariantAndDeliveries
  intro s t hreaches hinv
  induction hreaches with
  | start => exact ⟨hinv, [], by simp⟩
  | step _ hstep ih =>
    obtain ⟨hinv', new, hnew⟩ := ih
    obtain ⟨new', hnew'⟩ := step_delivered_append hstep
    exact ⟨stepKeepsSlotInvariant _ _ hinv' hstep, new ++ new', by rw [hnew', hnew, List.append_assoc]⟩
  | host _ _ ih => exact ih

/- ### Who delivers what -/

section

variable {i : Instr} {s t : State}

/-- A delivered verdict is the transition rule's, on the operands of `VERIFY` or on the recorded command for `RESP`. -/
theorem verdict_cases {r : VerificationResult} (hexec : exec i s = .next t)
    (hd : t.delivered = s.delivered ++ [.verification r]) :
    (∃ cmd resp, i = .verify cmd resp ∧ verifyReply cmd resp = .next r) ∨
    (∃ buf, i = .resp buf ∧ verifyReply s.slot.command buf = .next r) := by
  cases exec_cases hexec with
  | pure _ hi _ =>
    obtain ⟨r', hr', rfl⟩ := (exec_pure_eq_next hi).mp hexec
    simp only [State.deliver_delivered, List.append_cancel_left_eq, List.cons.injEq, and_true] at hd
    exact .inl (verify_of_pureResult_verification (hd ▸ hr'))
  | arm cmd _ _ _ ht => simp [ht] at hd
  | resp buf r' hrow _ hr' ht =>
    simp only [ht, State.deliver_delivered, State.setVState_delivered, List.append_cancel_left_eq, List.cons.injEq,
      Result.verification.injEq, and_true] at hd
    exact .inr ⟨buf, hrow, hd ▸ hr'⟩
  | abandon _ ht =>
    subst ht
    split at hd <;> simp at hd

theorem shortParse_of_delivers_frameTooShort (hexec : exec i s = .next t)
    (hd : t.delivered = s.delivered ++ [.frameTooShort]) : ∃ buf, i = .parse buf ∧ buf.length < 15 := by
  cases exec_cases hexec with
  | pure _ hi _ =>
    obtain ⟨r, hr, rfl⟩ := (exec_pure_eq_next hi).mp hexec
    simp only [State.deliver_delivered, List.append_cancel_left_eq, List.cons.injEq, and_true] at hd
    exact pureResult_eq_frameTooShort_iff.mp (hd ▸ hr)
  | arm cmd _ _ _ ht => simp [ht] at hd
  | resp buf r' _ _ _ ht => simp [ht] at hd
  | abandon _ ht =>
    subst ht
    split at hd <;> simp at hd

end

/-- Settles O26: the transition rule answers a value mismatch on a command with a value alone, whose bytes differ. -/
theorem valueMismatchCarriesSentAndDecoded : Obligations.ValueMismatchCarriesSentAndDecoded := by
  unfold Obligations.ValueMismatchCarriesSentAndDecoded
  intro i s t expected actual hexec hd
  have hverdict := verdict_cases hexec hd
  have hbound (v : Half) (r1 r2 : Byte) : v.toNat ≤ 65535 ∧ r1.toNat + 256 * r2.toNat ≤ 65535 :=
    ⟨Nat.le_of_lt_succ v.isLt, Nat.le_of_lt_succ (decU_two r1 r2 ▸ decU_two_lt r1 r2)⟩
  obtain ⟨cmd, resp, rfl, hr⟩ | ⟨buf, rfl, hr⟩ := hverdict
  · obtain ⟨op, v, r1, r2, rest, rfl, rfl, rfl, rfl, hne⟩ := verifyReply_mismatch hr
    obtain ⟨he, ha⟩ := hbound v r1 r2
    exact ⟨hne, he, ha, v, op, r1, r2, rest, rfl, rfl, .inl ⟨op, rfl⟩⟩
  · obtain ⟨op, v, r1, r2, rest, hcmd, rfl, rfl, rfl, hne⟩ := verifyReply_mismatch hr
    obtain ⟨he, ha⟩ := hbound v r1 r2
    have hvalue := congrArg Command.value hcmd
    exact ⟨hne, he, ha, v, op, r1, r2, rest, rfl, rfl,
      .inr ⟨rfl, Slot.hasVal_of_command_value hvalue, Slot.vVal_eq_of_command_value hvalue⟩⟩

/-- Settles O37: the operation is `PARSE` of a short buffer, whose answer is `exec_parse_of_short`. -/
theorem frameTooShortOnlyFromShortParse : Obligations.FrameTooShortOnlyFromShortParse := by
  unfold Obligations.FrameTooShortOnlyFromShortParse
  refine ⟨fun i s t hexec => ?delivery, fun r => ?code⟩
  case delivery =>
    have hshort (h : ∃ buf, i = .parse buf ∧ buf.length < 15) : t = s.deliver .frameTooShort := by
      obtain ⟨buf, rfl, hlen⟩ := h
      exact Host.Outcome.next.inj (hexec.symm.trans (exec_parse_of_short hlen s))
    exact ⟨⟨shortParse_of_delivers_frameTooShort hexec, fun h => hshort h ▸ rfl⟩,
      fun hd => hshort (shortParse_of_delivers_frameTooShort hexec hd)⟩
  case code => cases r <;> rfl

end Sys2Proof.Machine
end

section
/-! PROOFS. Arithmetic of the two decodes (spec 40_integer_decoder.md section 4), and what it gives for the parser
(41_frame_parser.md section 4) and the encoder (42_command_encoder.md sections 2 and 3): ranges, and that no byte is
lost. -/

namespace Sys2Proof.Machine

/- ### The two decodes of a slice -/

theorem decS_of_lt {b : Slice} (h : decU b < 2 ^ (sliceWidth b - 1)) : decS b = decU b := by
  rw [decS_eq, if_pos h]

theorem decS_of_ge {b : Slice} (h : 2 ^ (sliceWidth b - 1) ≤ decU b) : decS b = (decU b : Int) - 2 ^ sliceWidth b := by
  rw [decS_eq, if_neg (Nat.not_lt.mpr h)]

theorem decS_emod (b : Slice) : decS b % 2 ^ sliceWidth b = decU b := by
  have hlt : (decU b : Int) < 2 ^ sliceWidth b := by exact_mod_cast decU_lt_two_pow b
  have hmod : (decU b : Int) % 2 ^ sliceWidth b = decU b := Int.emod_eq_of_lt (Int.natCast_nonneg _) hlt
  rw [decS_eq]
  split
  · exact hmod
  · rw [Int.sub_emod_right, hmod]

theorem sliceWidth_le (b : Slice) : sliceWidth b ≤ 16 := by
  cases b <;> simp [sliceWidth]

theorem decU_le (b : Slice) : decU b ≤ 65535 :=
  Nat.le_of_lt_succ ((decU_lt_two_pow b).trans_le (Nat.pow_le_pow_right (by decide) (sliceWidth_le b)))

theorem decS_ge (b : Slice) : -32768 ≤ decS b := by
  refine le_trans ?_ (decS_mem_range b).1
  cases b <;> simp [sliceWidth]

theorem decU_injective_of_width {b c : Slice} (hw : sliceWidth c = sliceWidth b) (h : decU c = decU b) : c = b := by
  match b, c with
  | .one b0, .one c0 => rw [BitVec.eq_of_toNat_eq h]
  | .two b0 b1, .two c0 c1 =>
    have hlow := congrArg lowByte h
    have hhigh := congrArg highByte h
    rw [lowByte_decU_two, lowByte_decU_two] at hlow
    rw [highByte_decU_two, highByte_decU_two] at hhigh
    rw [hlow, hhigh]
  | .one _, .two _ _ | .two _ _, .one _ => simp [sliceWidth] at hw

theorem decS_injective_of_width {b c : Slice} (hw : sliceWidth c = sliceWidth b) (h : decS c = decS b) : c = b := by
  have hmod : ((decU c : Nat) : Int) = (decU b : Nat) := by rw [← decS_emod c, ← decS_emod b, hw, h]
  exact decU_injective_of_width hw (Int.ofNat.inj hmod)

/-- Settles O5: the laws, one lemma each. -/
theorem decodeArithmeticLaws : Obligations.DecodeArithmeticLaws := by
  unfold Obligations.DecodeArithmeticLaws
  intro b
  obtain ⟨hmin, hmax⟩ := decS_mem_range b
  exact ⟨decU_lt_two_pow b, hmin, Int.lt_of_le_sub_one hmax, decS_of_lt, decS_of_ge, decS_emod b, decS_ge b,
    Int.ofNat_le.mpr (decU_le b), fun c hw => ⟨decU_injective_of_width hw, decS_injective_of_width hw⟩⟩

/-- Settles O4: the operands are the ports; the results are the two readings, written out by `decU_two`, `decS_one` and
`decS_two`. -/
theorem fixedLengthDecodesComplete : Obligations.FixedLengthDecodesComplete := by
  unfold Obligations.FixedLengthDecodesComplete
  intro s p b0 b1
  rw [← decU_two, ← decS_one, ← decS_two]
  exact ⟨rfl, rfl, rfl, rfl, rfl, rfl, rfl, rfl⟩

/- ### Fields of a telemetry frame -/

/-- A field of two bytes comes from the two bytes at its offset. -/
theorem bytes_of_twoByteField {buf : List Byte} {off : Nat} {x : Int} {decoder : Slice → Int}
    (h : andThen (memRead2 buf off) (fun b => .next (decoder b)) = .next x) :
    ∃ b0 b1, buf[off]? = some b0 ∧ buf[off + 1]? = some b1 ∧ x = decoder (.two b0 b1) := by
  obtain ⟨b, hb, hx⟩ := andThen_eq_next.mp h
  obtain ⟨b0, b1, h0, h1, rfl⟩ := memRead2_next hb
  exact ⟨b0, b1, h0, h1, (Host.Outcome.next.inj hx).symm⟩

theorem byte_of_fieldU8 {buf : List Byte} {off : Nat} {x : Int} (h : fieldU8 buf off = .next x) :
    ∃ b0, buf[off]? = some b0 ∧ x = b0.toNat := by
  obtain ⟨b, hb, hx⟩ := andThen_eq_next.mp h
  obtain ⟨b0, h0, rfl⟩ := memRead1_next hb
  exact ⟨b0, h0, (Host.Outcome.next.inj hx).symm⟩

theorem fieldU16_mem_range {buf : List Byte} {off : Nat} {x : Int} (h : fieldU16 buf off = .next x) :
    0 ≤ x ∧ x ≤ 65535 := by
  obtain ⟨b0, b1, -, -, rfl⟩ := bytes_of_twoByteField h
  exact ⟨Int.natCast_nonneg _, Int.ofNat_le.mpr (decU_le _)⟩

theorem fieldS16_mem_range {buf : List Byte} {off : Nat} {x : Int} (h : fieldS16 buf off = .next x) :
    -32768 ≤ x ∧ x ≤ 32767 := by
  obtain ⟨b0, b1, -, -, rfl⟩ := bytes_of_twoByteField h
  exact decS_mem_range (.two b0 b1)

theorem fieldU8_mem_range {buf : List Byte} {off : Nat} {x : Int} (h : fieldU8 buf off = .next x) :
    0 ≤ x ∧ x ≤ 255 := by
  obtain ⟨b0, -, rfl⟩ := byte_of_fieldU8 h
  exact ⟨Int.natCast_nonneg _, Int.ofNat_le.mpr (Nat.le_of_lt_succ b0.isLt)⟩

/-- Two equal fields of two bytes, under a decoder that is one-to-one on two bytes, come from equal bytes. -/
theorem bytes_eq_of_twoByteField {buf buf' : List Byte} {off : Nat} {x : Int} {decoder : Slice → Int}
    (hdecoder : ∀ {b c : Slice}, sliceWidth c = sliceWidth b → decoder c = decoder b → c = b)
    (h : andThen (memRead2 buf off) (fun b => .next (decoder b)) = .next x)
    (h' : andThen (memRead2 buf' off) (fun b => .next (decoder b)) = .next x) :
    buf'[off]? = buf[off]? ∧ buf'[off + 1]? = buf[off + 1]? := by
  obtain ⟨b0, b1, h0, h1, rfl⟩ := bytes_of_twoByteField h
  obtain ⟨c0, c1, h0', h1', hx⟩ := bytes_of_twoByteField h'
  obtain ⟨rfl, rfl⟩ := Slice.two.inj (hdecoder (b := .two c0 c1) (c := .two b0 b1) rfl hx)
  exact ⟨h0'.trans h0.symm, h1'.trans h1.symm⟩

theorem bytes_eq_of_fieldU16 {buf buf' : List Byte} {off : Nat} {x : Int} (h : fieldU16 buf off = .next x)
    (h' : fieldU16 buf' off = .next x) : buf'[off]? = buf[off]? ∧ buf'[off + 1]? = buf[off + 1]? :=
  bytes_eq_of_twoByteField (fun hw hx => decU_injective_of_width hw (Int.ofNat.inj hx)) h h'

theorem byte_eq_of_fieldU8 {buf buf' : List Byte} {off : Nat} {x : Int} (h : fieldU8 buf off = .next x)
    (h' : fieldU8 buf' off = .next x) : buf'[off]? = buf[off]? := by
  obtain ⟨b0, h0, rfl⟩ := byte_of_fieldU8 h
  obtain ⟨c0, h0', hx⟩ := byte_of_fieldU8 h'
  obtain rfl := BitVec.eq_of_toNat_eq (Int.ofNat.inj hx)
  exact h0'.trans h0.symm

/-- The eight fields cover the fifteen bytes. -/
theorem readTelemetry_injective {buf buf' : List Byte} {f : TelemetryFrame} (hlen : buf.length = 15)
    (hlen' : buf'.length = 15) (h : readTelemetry buf = .next f) (h' : readTelemetry buf' = .next f) : buf' = buf := by
  obtain ⟨h0, h1, h2, h3, h4, h5, h6, h7⟩ := readTelemetry_eq_next.mp h
  obtain ⟨h0', h1', h2', h3', h4', h5', h6', h7'⟩ := readTelemetry_eq_next.mp h'
  obtain ⟨e0, e1⟩ := bytes_eq_of_fieldU16 h0 h0'
  obtain ⟨e2, e3⟩ := bytes_eq_of_fieldU16 h1 h1'
  obtain ⟨e4, e5⟩ := bytes_eq_of_fieldU16 h2 h2'
  obtain ⟨e6, e7⟩ := bytes_eq_of_fieldU16 h3 h3'
  obtain ⟨e8, e9⟩ := bytes_eq_of_twoByteField decS_injective_of_width h4 h4'
  obtain ⟨e10, e11⟩ := bytes_eq_of_fieldU16 h5 h5'
  obtain ⟨e12, e13⟩ := bytes_eq_of_fieldU16 h6 h6'
  have e14 := byte_eq_of_fieldU8 h7 h7'
  refine List.ext_getElem? fun k => ?_
  obtain hk | hk := Nat.lt_or_ge k 15
  · interval_cases k <;> assumption
  · rw [List.getElem?_eq_none (hlen'.trans_le hk), List.getElem?_eq_none (hlen.trans_le hk)]

/-- Settles O13: a delivered frame is `readTelemetry` of the buffer, field by field. -/
theorem parseIsInjectiveWithinRanges : Obligations.ParseIsInjectiveWithinRanges := by
  unfold Obligations.ParseIsInjectiveWithinRanges
  intro s buf f h
  have hf := readTelemetry_of_exec_parse h
  obtain ⟨h0, h1, h2, h3, h4, h5, h6, h7⟩ := readTelemetry_eq_next.mp hf
  obtain ⟨hmin, hmax⟩ := fieldS16_mem_range h4
  obtain ⟨hmin7, hmax7⟩ := fieldU8_mem_range h7
  refine ⟨?unsigned, hmin, hmax, hmin7, hmax7,
    fun buf' hlen hlen' h' => readTelemetry_injective hlen hlen' hf (readTelemetry_of_exec_parse h')⟩
  case unsigned =>
    simp only [List.forall_mem_cons]
    exact ⟨fieldU16_mem_range h0, fieldU16_mem_range h1, fieldU16_mem_range h2, fieldU16_mem_range h3,
      fieldU16_mem_range h5, fieldU16_mem_range h6, List.forall_mem_nil _⟩

/- ### Values of a command frame -/

theorem encodeFrame_zero (op : Byte) :
    encodeFrame op 0 = { opcode := op, valueLow := 0, valueHigh := 0, checksum := op } := by
  have hchecksum : BitVec.ofNat 8 ((op.toNat + 0 % 256 + 0 / 256) % 256) = op := by
    apply BitVec.eq_of_toNat_eq
    rw [BitVec.toNat_ofNat]
    omega
  rw [encodeFrame_of_le op (Nat.zero_le _), hchecksum]
  rfl

/-- The stored bytes hold the opcode and the value modulo 65536. -/
theorem encodeFrame_injective_mod {op op' : Byte} {v v' : Nat} (h : encodeFrame op v = encodeFrame op' v') :
    op = op' ∧ v % 65536 = v' % 65536 := by
  have hlow := congrArg (fun f => f.valueLow.toNat) h
  have hhigh := congrArg (fun f => f.valueHigh.toNat) h
  simp only [encodeFrame_eq, lowByte_toNat, highByte_toNat] at hlow hhigh
  exact ⟨congrArg CommandFrame.opcode h, by omega⟩

/-- Settles O18: an omitted value is the operand 0. -/
theorem encOmittedValueIsZero : Obligations.EncOmittedValueIsZero := by
  unfold Obligations.EncOmittedValueIsZero
  intro s opcode hop
  have hnone : exec (.enc opcode none) s = .next (s.deliver (.commandFrame (encodeFrame opcode 0))) :=
    execEnc_eq_next.mpr ⟨isAscii_iff.mpr hop, rfl, rfl⟩
  exact ⟨encodeFrame_zero opcode ▸ hnone, hnone.trans (exec_enc_of_ascii hop 0 s).symm⟩

/-- Settles O19: the frame depends on the value modulo 65536 alone. -/
theorem encMasksWideValues : Obligations.EncMasksWideValues := by
  unfold Obligations.EncMasksWideValues
  intro s opcode value hop
  refine ⟨fun hvalue => ?masked, fun hneg => exec_enc_of_negative (isAscii_iff.mpr hop) hneg s⟩
  case masked =>
    obtain ⟨v, rfl⟩ := Int.eq_ofNat_of_zero_le hvalue
    have hmod : ((v : Int) % 65536) = ((v % 65536 : Nat) : Int) := (Int.natCast_mod v 65536).symm
    rw [hmod, exec_enc_of_ascii hop, exec_enc_of_ascii hop, ← encodeFrame_mod]
    exact ⟨rfl, _, rfl⟩

/-- Settles O24: equal deliveries are equal frames. -/
theorem encIsInjective : Obligations.EncIsInjective := by
  unfold Obligations.EncIsInjective
  intro s t op op' value value' h h'
  obtain ⟨-, -, rfl⟩ := execEnc_eq_next.mp h
  obtain ⟨-, -, hdeliver⟩ := execEnc_eq_next.mp h'
  exact encodeFrame_injective_mod (Result.commandFrame.inj (s.deliver_injective hdeliver))

end Sys2Proof.Machine
end

section
/-! PROOFS. The verifier slot in use (spec 43_response_verifier.md sections 3 and 4, 30_encoding.md section 6): `ARM`,
`RESP` and `ABANDON` case by case, that `ARM` then `RESP` gives `VERIFY`'s verdict, and a whole exchange. -/

namespace Sys2Proof.Machine

/- ### The recorded command -/

theorem Slot.command_of_hasVal {slot : Slot} (h : slot.vHasVal = true) :
    slot.command = { op := slot.vOp, value := some slot.vVal } := by
  simp [Slot.command, h]

theorem Slot.command_of_not_hasVal {slot : Slot} (h : slot.vHasVal = false) :
    slot.command = { op := slot.vOp, value := none } := by
  simp [Slot.command, h]

/- ### The three operations on the slot -/

/-- Settles O29: recording the command, the value in `V_VAL` when there is one and a free value otherwise. -/
theorem armRecordsCommand : Obligations.ArmRecordsCommand := by
  unfold Obligations.ArmRecordsCommand
  refine ⟨fun p => rfl, fun s cmd => ⟨fun h => exec_arm_of_outstanding h cmd, fun hfree hop => ?records⟩⟩
  case records =>
    have harm := exec_arm_of_free hfree (isAscii_iff.mpr hop)
    match cmd with
    | { op := op, value := none } => exact ⟨Config.freeVal s.draws, s.draws + 1, harm, nofun⟩
    | { op := op, value := some v } => exact ⟨v, s.draws, harm, fun _ hv => ⟨Option.some.inj hv, rfl⟩⟩

/-- Settles O30: the answers of the transition rule on the recorded command, and the tags of its verdicts. -/
theorem respTakesOneStep : Obligations.RespTakesOneStep := by
  unfold Obligations.RespTakesOneStep
  refine ⟨fun p => rfl, fun s => ⟨exec_resp_of_free, fun hawaiting =>
    ⟨exec_resp_of_short hawaiting (replyLongEnough_nil _), ?short, ?noValue, ?value⟩⟩⟩
  case short =>
    intro hval buf hlen
    refine exec_resp_of_short hawaiting ?_
    rw [Slot.command_of_hasVal hval]
    exact replyLongEnough_some_of_lt hlen
  case noValue =>
    intro hval r0 rest
    have hreply := verifyReply_none s.slot.vOp r0 rest
    rw [← Slot.command_of_not_hasVal hval] at hreply
    have hresp := exec_resp_of_verifyReply hawaiting hreply
    simp only [apply_ite resultTag] at hresp
    exact hresp
  case value =>
    intro hval r0 r1 r2 rest
    have hreply := verifyReply_some s.slot.vOp r0 r1 r2 s.slot.vVal rest
    rw [← Slot.command_of_hasVal hval] at hreply
    have hresp := exec_resp_of_verifyReply hawaiting hreply
    simp only [apply_ite resultTag] at hresp
    exact hresp

/-- Settles O31: the two branches of `ABANDON`. -/
theorem abandonFreesSlot : Obligations.AbandonFreesSlot := by
  unfold Obligations.AbandonFreesSlot
  exact ⟨fun p => rfl, fun s => ⟨exec_abandon_of_awaiting, exec_abandon_of_free⟩⟩

theorem vStateCode_eq_three_iff {v : VState} : vStateCode v = 3 ↔ v = .opcodeMismatch := by
  cases v <;> decide

theorem vStateCode_eq_four_iff {v : VState} : vStateCode v = 4 ↔ v = .valueMismatch := by
  cases v <;> decide

/-- Settles O38: the transition rule answers a verdict on a long enough reply; the status output is its tag's code. -/
theorem mismatchesAreResults : Obligations.MismatchesAreResults := by
  unfold Obligations.MismatchesAreResults
  refine ⟨?verify, ?resp, fun r => rfl⟩
  case verify =>
    intro s cmd resp hop hlong
    obtain ⟨r, hr⟩ := verifyReply_long hlong
    exact ⟨r, (exec_verify_eq_deliver_iff hop).mpr hr⟩
  case resp =>
    intro s resp hawaiting hlong
    obtain ⟨r, hr⟩ := verifyReply_long hlong
    exact ⟨r, _, exec_resp_of_verifyReply hawaiting hr, rfl,
      (vStateCode_eq_three_iff.trans resultTag_eq_opcodeMismatch_iff).symm,
      (vStateCode_eq_four_iff.trans resultTag_eq_valueMismatch_iff).symm⟩

/- ### `ARM` then `RESP` -/

/-- `RESP` on a slot that holds a command gives that command's verdict and leaves its tag. -/
theorem exec_resp_of_command {s : State} {cmd : Command} {reply : List Byte} {r : VerificationResult}
    (hawaiting : s.slot.vState = .awaitingResponse) (hcmd : s.slot.command = cmd)
    (hr : verifyReply cmd reply = .next r) :
    exec (.resp reply) s = .next ((s.setVState (resultTag r)).deliver (.verification r)) :=
  exec_resp_of_verifyReply hawaiting (hcmd ▸ hr)

/-- Settles O33: `RESP` applies the transition rule to the command that `ARM` recorded, `VERIFY` to the same command. -/
theorem armThenRespAgreesWithVerify : Obligations.ArmThenRespAgreesWithVerify := by
  unfold Obligations.ArmThenRespAgreesWithVerify
  intro s cmd resp hfree hop hlong
  obtain ⟨r, hr⟩ := verifyReply_long hlong
  exact ⟨s.recordCommand cmd, _, r, exec_arm_of_free hfree (isAscii_iff.mpr hop),
    exec_resp_of_command (s.recordCommand_vState cmd) (s.recordCommand_command cmd) hr,
    (exec_verify_eq_deliver_iff hop).mpr hr, s.recordCommand_delivered cmd, by simp, rfl⟩

/- ### The command's own frame -/

/-- The value operand that the host gives `ENC` for a command (30_encoding.md R75). -/
def encValue (value : Option Half) : Option Int := value.map fun v => (v.toNat : Int)

/-- The frame of a command: its opcode and its value, 0 when it has none (R135). -/
def commandFrame (cmd : Command) : CommandFrame := encodeFrame cmd.op (valueOperand (encValue cmd.value))

theorem nonNegative_encValue (value : Option Half) : nonNegative (encValue value) = true := by
  cases value with
  | none => rfl
  | some v => exact decide_eq_true (Int.natCast_nonneg v.toNat)

theorem wellFormed_enc_encValue {cmd : Command} (h : isAscii cmd.op = true) :
    (Instr.enc cmd.op (encValue cmd.value)).wellFormed = true :=
  (Bool.and_eq_true _ _).mpr ⟨h, nonNegative_encValue cmd.value⟩

theorem exec_enc_encValue {cmd : Command} (h : isAscii cmd.op = true) (s : State) :
    exec (.enc cmd.op (encValue cmd.value)) s = .next (s.deliver (.commandFrame (commandFrame cmd))) :=
  execEnc_eq_next.mpr ⟨h, nonNegative_encValue cmd.value, rfl⟩

/-- The bytes of a command's frame begin with the command, whatever follows them. -/
theorem beginsWith_commandFrame (cmd : Command) (rest : List Byte) :
    BeginsWith ((commandFrame cmd).opcode :: (commandFrame cmd).valueLow :: (commandFrame cmd).valueHigh :: rest)
      cmd := by
  refine ⟨rfl, fun v hv => ⟨_, _, rfl, rfl, ?_⟩⟩
  have hvalue : valueOperand (encValue cmd.value) = v.toNat := by rw [hv]; rfl
  rw [commandFrame, hvalue, encodeFrame_eq, ← decU_two]
  exact decU_split v.isLt

/-- Settles O34: the frame begins with the command, and such a reply matches. -/
theorem ownFrameAlwaysMatches : Obligations.OwnFrameAlwaysMatches := by
  unfold Obligations.OwnFrameAlwaysMatches
  intro s op value surplus hop
  exact ⟨commandFrame { op := op, value := value },
    exec_enc_encValue (cmd := { op := op, value := value }) (isAscii_iff.mpr hop) s,
    (exec_verify_eq_deliver_iff hop).mpr (verifyReply_eq_matched_iff.mpr (beginsWith_commandFrame _ _))⟩

/- ### An exchange -/

theorem run_three {s t u v : State} (hst : step s = .next t) (htu : step t = .next u) (huv : step u = .next v) :
    Host.Core.run core 3 s = .next v := by
  have hs : core.step s = .next t := hst
  have ht : core.step t = .next u := htu
  have hu : core.step u = .next v := huv
  simp only [Host.Core.run, hs, ht, hu]

section

variable {s : State} {cmd : Command} {reply : List Byte} {rest : List Event}

theorem step_enc_encValue (hp : s.pending = .request (encode (.enc cmd.op (encValue cmd.value))) :: rest)
    (hop : isAscii cmd.op = true) :
    step s = .next (State.deliver { s with pending := rest } (.commandFrame (commandFrame cmd))) :=
  (step_of_encode hp (wellFormed_enc_encValue hop)).trans (exec_enc_encValue hop _)

theorem step_arm_of_free (hp : s.pending = .request (encode (.arm cmd)) :: rest)
    (hfree : s.slot.vState ≠ .awaitingResponse) (hop : isAscii cmd.op = true) :
    step s = .next (State.recordCommand { s with pending := rest } cmd) :=
  (step_of_encode hp hop).trans (exec_arm_of_free hfree hop)

theorem step_resp_of_command {r : VerificationResult} (hp : s.pending = .request (encode (.resp reply)) :: rest)
    (hawaiting : s.slot.vState = .awaitingResponse) (hcmd : s.slot.command = cmd)
    (hr : verifyReply cmd reply = .next r) :
    step s = .next
      ((State.setVState { s with pending := rest } (resultTag r)).deliver (.verification r)) :=
  (step_of_encode hp rfl).trans (exec_resp_of_command hawaiting hcmd hr)

end

/-- Settles O35: the three requests are executed in turn: the frame, the recorded command, its verdict. -/
theorem exchangeEndsInItsVerdict : Obligations.ExchangeEndsInItsVerdict := by
  unfold Obligations.ExchangeEndsInItsVerdict
  intro s cmd reply rest hfree hop hlong
  have hascii := isAscii_iff.mpr hop
  obtain ⟨r, hr⟩ := verifyReply_long hlong
  have henc := step_enc_encValue (s := { s with pending := exchangeScript cmd reply ++ rest }) rfl hascii
  have harm := step_arm_of_free (s := State.deliver { s with pending := presentAll [.arm cmd, .resp reply] ++ rest }
    (.commandFrame (commandFrame cmd))) rfl hfree hascii
  have hrun := run_three henc harm (step_resp_of_command (State.recordCommand_pending _ cmd)
    (State.recordCommand_vState _ cmd) (State.recordCommand_command _ cmd) hr)
  exact ⟨_, commandFrame cmd, r, hrun, rfl, by simp, rfl, State.recordCommand_vOp _ cmd, rfl,
    exec_enc_encValue hascii s, (exec_verify_eq_deliver_iff hop).mpr hr⟩

end Sys2Proof.Machine
end
